-- ==== Sys2Proof/Word.lean ====
section
/-!
DEFINITION. The value domain of the core (00_scope.md rules R10, R11): registers, memory words, literals and
addresses are exact mathematical integers, Lean's `Int`; no value of the architecture is a bit vector.
-/
namespace Sys2Proof

/-- WORD_MODEL, the one parameter that rule R10 (decision D2) leaves to an instance of the core. -/
inductive WordModel where
  /-- Every integer is representable; the value this hardware takes (rule R9). -/
  | unbounded
  /-- A `W`-bit two's-complement realisation; a value that does not fit raises FAULT_WIDTH. -/
  | fixed (W : Nat)
  deriving DecidableEq, Repr

end Sys2Proof
end

