-- ==== Sys2Proof/Config.lean ====
section
/-!
DEFINITION. The implementation parameters of 00_scope.md rule R9, each under the spec's name. The numbers are
unaudited (rule R5). No value of this hardware is left free, so there is no opaque constant here.
-/
namespace Sys2Proof.Config

/-- MEM_SIZE: number of data-memory words. -/
def memSize : Nat := 256
/-- PROG_MAX: most program lines, and the first illegal program-counter value. -/
def progMax : Nat := 128
/-- PC_MAX: highest legal program-counter value and JMP target. -/
def pcMax : Int := 127
/-- DATA_BASE: first address handed out by DEC. -/
def dataBase : Int := 128
/-- MIN_VALUE: lower bound for overflow detection and for STR. -/
def minValue : Int := -32768
/-- MAX_VALUE: upper bound for overflow detection and for STR. -/
def maxValue : Int := 32767
/-- WATERMARK: executed-instruction count at which a run pauses. -/
def watermark : Nat := 1000
/-- The address that `lookup` yields for a name with no binding (rule R13). -/
def undeclaredAddress : Int := 0
/-- The smallest W of WORD_MODEL = Fixed(W) (rule R10). -/
def minWidth : Nat := 17
/-- WORD_MODEL: the instance this hardware takes (rule R9, decision D2; log entry 4). -/
def wordModel : WordModel := .unbounded

end Sys2Proof.Config
end

