-- ==== Sys2Proof/Machine/Width.lean ====
section
/-!
DEFINITION. The two range tests on integers: `inRange` (00_scope.md rule R11) and the width test of WORD_MODEL
(rule R15).
-/
namespace Sys2Proof

/-- `inRange(v)`: `MIN_VALUE <= v <= MAX_VALUE` (rule R11). -/
def inRange (v : Int) : Bool :=
  decide (Config.minValue ≤ v) && decide (v ≤ Config.maxValue)

/-- `2^(W-1)`, the bound of a `W`-bit two's-complement value. -/
def signBound (W : Nat) : Int := ((2 ^ (W - 1) : Nat) : Int)

/-- `fits_W(v)` (rule R15): true of every integer under Unbounded. -/
def WordModel.fits : WordModel → Int → Bool
  | .unbounded, _ => true
  | .fixed W, v => decide (-signBound W ≤ v) && decide (v ≤ signBound W - 1)

/-- Rule R10: Fixed(W) needs W at least 17. -/
def WordModel.legal : WordModel → Bool
  | .unbounded => true
  | .fixed W => decide (Config.minWidth ≤ W)

end Sys2Proof
end

