-- ==== Sys2Proof/Syntax.lean ====
section
/-!
DEFINITION. The instructions of the SAL accumulator core (30_encoding.md rules R76, R78): one constructor per row
of the opcode table. A line is text, so lines and names are lists of characters (log entry 1).
-/
namespace Sys2Proof

/-- One element of the loaded program: the text of one instruction (rules R8, R19, R70). -/
abbrev Line := List Char

/-- A symbol name: a token, compared character by character (rule R74). -/
abbrev SymName := List Char

/-- The instruction term of rule R78. -/
inductive Instr where
  /-- DEC `s`, Declare (rule R100). -/
  | dec (s : SymName)
  /-- ADD, Add (rule R112). -/
  | add
  /-- SUB, Subtract (rule R116). -/
  | sub
  /-- LDA `s`, LoadAccumulatorFromMemory (rule R130). -/
  | lda (s : SymName)
  /-- LDI `n`, LoadAccumulatorImmediate (rule R135). -/
  | ldi (n : Int)
  /-- STR `s`, StoreAccumulatorToMemory (rule R140). -/
  | str (s : SymName)
  /-- XCH, Exchange (rule R150). -/
  | xch
  /-- JMP `n`, Jump (rule R160). -/
  | jmp (n : Int)
  /-- JZS `n`, JumpIfZero (rule R164). -/
  | jzs (n : Int)
  /-- HLT, Halt (rule R168). -/
  | hlt
  deriving DecidableEq, Repr

/-- The operand formats of rule R73. -/
inductive Format where
  /-- No operand. -/
  | t0
  /-- A symbol name. -/
  | ts
  /-- A decimal integer. -/
  | ti
  deriving DecidableEq, Repr

/-- What decoding one line gives (rule R78). -/
inductive Decoded where
  /-- An instruction. -/
  | ok (i : Instr)
  /-- Not one of the ten keywords, or no token at all (rule R79). -/
  | unknown
  /-- A required operand is missing or is no decimal integer (rules R80, R81). -/
  | malformed
  /-- Under Fixed(W) only: the literal does not fit, FAULT_WIDTH (rule R75). -/
  | tooWide (n : Int)
  deriving DecidableEq, Repr

end Sys2Proof
end

