-- ==== Sys2Proof/Machine/Text.lean ====
section
/-!
DEFINITION. Text of a line: whitespace, tokens and decimal integers (30_encoding.md rules R71, R75).
-/
namespace Sys2Proof

/-- The six whitespace characters of rule R71 (decision D6): space, tab, LF, VT, FF, CR. -/
def isWs (c : Char) : Bool :=
  [0x20, 0x09, 0x0A, 0x0B, 0x0C, 0x0D].contains c.toNat

/-- The text begins with a character of a token. -/
def beginsToken : List Char → Bool
  | [] => false
  | c :: _ => !isWs c

/-- Put a character in front of the first token. -/
def joinHead (c : Char) : List (List Char) → List (List Char)
  | [] => [[c]]
  | tok :: toks => (c :: tok) :: toks

/-- `split_ws(line)` (rule R16): the maximal non-empty runs of non-whitespace characters, in order. -/
def splitWs : Line → List (List Char)
  | [] => []
  | c :: cs =>
    if isWs c then splitWs cs
    else if beginsToken cs then joinHead c (splitWs cs)
    else [c] :: splitWs cs

/-- A token: at least one character, none of them whitespace (rule R71). -/
def isToken (t : List Char) : Bool :=
  !t.isEmpty && t.all (fun c => !isWs c)

/-- The value of a decimal digit `0` to `9` (rule R75). -/
def digitValue (c : Char) : Option Nat :=
  if 0x30 ≤ c.toNat ∧ c.toNat ≤ 0x39 then some (c.toNat - 0x30) else none

/-- The number that a run of digits denotes after the digits that made `acc`; `none` at a character that is no digit. -/
def digitsValue : Nat → List Char → Option Nat
  | acc, [] => some acc
  | acc, c :: cs =>
    match digitValue c with
    | some d => digitsValue (10 * acc + d) cs
    | none => none

/-- One or more digits and nothing else: `[0-9]+`. -/
def parseDigits : List Char → Option Nat
  | [] => none
  | c :: cs => digitsValue 0 (c :: cs)

/-- The spelling `[+-]?[0-9]+` of rule R75 (decision D7) and the exact integer it denotes; `none` for any other token. -/
def parseInt : List Char → Option Int
  | '+' :: cs => (parseDigits cs).map Int.ofNat
  | '-' :: cs => (parseDigits cs).map (fun n => -Int.ofNat n)
  | cs => (parseDigits cs).map Int.ofNat

/-- The character of a digit below ten. -/
def digitChar (d : Nat) : Char := Char.ofNat (0x30 + d)

/-- The decimal digits of `n`, most significant first, before those of `tail`; `fuel` above `n` suffices. -/
def digitsOf : Nat → Nat → List Char → List Char
  | 0, _, tail => tail
  | fuel + 1, n, tail =>
    if n / 10 = 0 then digitChar (n % 10) :: tail
    else digitsOf fuel (n / 10) (digitChar (n % 10) :: tail)

/-- The canonical spelling of an integer: a minus sign where negative, no plus sign, no leading zeros. -/
def printInt : Int → List Char
  | .ofNat n => digitsOf (n + 1) n []
  | .negSucc n => '-' :: digitsOf (n + 2) (n + 1) []

end Sys2Proof
end

