-- ==== Sys2Proof/WellFormed.lean ====
section
/-!
DEFINITION. Which instruction terms a line can spell: a symbol name is a token (30_encoding.md rules R71, R74);
an integer operand is any integer (rule R75).
-/
namespace Sys2Proof

/-- The instruction is spelled by some line. -/
def Instr.wf : Instr → Bool
  | .dec s => isToken s
  | .lda s => isToken s
  | .str s => isToken s
  | .ldi _ => true
  | .jmp _ => true
  | .jzs _ => true
  | .add => true
  | .sub => true
  | .xch => true
  | .hlt => true

end Sys2Proof
end

