-- ==== Sys2Proof/Decode.lean ====
section
/-!
DEFINITION. The Dispatcher's decoder (30_encoding.md rules R72 to R83), total on every line, and the encoder of the
same table. `decodeTableWord` is the host's numbering of a line as bytes (log entry 2).
-/
namespace Sys2Proof

/-- The keyword of each instruction (rule R76). -/
def Instr.keyword : Instr → List Char
  | .dec _ => ['D', 'E', 'C']
  | .add => ['A', 'D', 'D']
  | .sub => ['S', 'U', 'B']
  | .lda _ => ['L', 'D', 'A']
  | .ldi _ => ['L', 'D', 'I']
  | .str _ => ['S', 'T', 'R']
  | .xch => ['X', 'C', 'H']
  | .jmp _ => ['J', 'M', 'P']
  | .jzs _ => ['J', 'Z', 'S']
  | .hlt => ['H', 'L', 'T']

/-- The format of each instruction (rules R73, R76). -/
def Instr.format : Instr → Format
  | .dec _ => .ts
  | .add => .t0
  | .sub => .t0
  | .lda _ => .ts
  | .ldi _ => .ti
  | .str _ => .ts
  | .xch => .t0
  | .jmp _ => .ti
  | .jzs _ => .ti
  | .hlt => .t0

/-- The integer literal or address an instruction carries: the value that rule R75 checks for width. -/
def Instr.literal? : Instr → Option Int
  | .ldi n => some n
  | .jmp n => some n
  | .jzs n => some n
  | .dec _ => none
  | .add => none
  | .sub => none
  | .lda _ => none
  | .str _ => none
  | .xch => none
  | .hlt => none

/-- Every literal of the instruction fits the word model (rules R15, R75). -/
def Instr.fitsIn (wm : WordModel) (i : Instr) : Bool :=
  match i.literal? with
  | some n => wm.fits n
  | none => true

/-- What a keyword selects: one instruction, up to its operand. -/
inductive Selected where
  /-- Format T0: the instruction. -/
  | plain (i : Instr)
  /-- Format TS: the instruction of a name. -/
  | ofName (k : SymName → Instr)
  /-- Format TI: the instruction of an integer. -/
  | ofInt (k : Int → Instr)

/-- The opcode map of rule R76: exact, case-sensitive match of the keyword (rule R77). -/
def select (op : List Char) : Option Selected :=
  if op = ['D', 'E', 'C'] then some (.ofName .dec)
  else if op = ['A', 'D', 'D'] then some (.plain .add)
  else if op = ['S', 'U', 'B'] then some (.plain .sub)
  else if op = ['L', 'D', 'A'] then some (.ofName .lda)
  else if op = ['L', 'D', 'I'] then some (.ofInt .ldi)
  else if op = ['S', 'T', 'R'] then some (.ofName .str)
  else if op = ['X', 'C', 'H'] then some (.plain .xch)
  else if op = ['J', 'M', 'P'] then some (.ofInt .jmp)
  else if op = ['J', 'Z', 'S'] then some (.ofInt .jzs)
  else if op = ['H', 'L', 'T'] then some (.plain .hlt)
  else none

/-- A symbol operand is the second token, as it is (rule R74); missing, the line is malformed (rule R81). -/
def decodeName (k : SymName → Instr) : List (List Char) → Decoded
  | [] => .malformed
  | t :: _ => .ok (k t)

/-- An integer operand is the second token, spelled as rule R75 says; then the width test (rules R80, R83). -/
def decodeInt (wm : WordModel) (k : Int → Instr) : List (List Char) → Decoded
  | [] => .malformed
  | t :: _ =>
    match parseInt t with
    | none => .malformed
    | some n => if wm.fits n then .ok (k n) else .tooWide n

/-- `Decode` of rule R78 on the tokens of a line. Tokens that no format reads are ignored (rule R82). -/
def decodeTokens (wm : WordModel) : List (List Char) → Decoded
  | [] => .unknown
  | op :: operands =>
    match select op with
    | none => .unknown
    | some (.plain i) => .ok i
    | some (.ofName k) => decodeName k operands
    | some (.ofInt k) => decodeInt wm k operands

/-- `Decode(line)` of rule R78 in the word model `wm`. -/
def decodeIn (wm : WordModel) (line : Line) : Decoded := decodeTokens wm (splitWs line)

/-- `Decode(line)` in the word model this hardware takes (rule R9). -/
def decode (line : Line) : Decoded := decodeIn Config.wordModel line

/-- The operand text of an instruction, with the space before it (rule R87). -/
def encodeOperand : Instr → List Char
  | .dec s => ' ' :: s
  | .lda s => ' ' :: s
  | .str s => ' ' :: s
  | .ldi n => ' ' :: printInt n
  | .jmp n => ' ' :: printInt n
  | .jzs n => ' ' :: printInt n
  | .add => []
  | .sub => []
  | .xch => []
  | .hlt => []

/-- The line `KEYWORD` or `KEYWORD operand` of rule R87. -/
def encode (i : Instr) : Line := i.keyword ++ encodeOperand i

/-- The first `k` bytes of `w`, the least significant first, up to its last byte that is not zero. -/
def bytesOf : Nat → Nat → List Nat
  | 0, _ => []
  | k + 1, w => if w = 0 then [] else (w % 256) :: bytesOf k (w / 256)

/-- The line whose k-th character has the k-th byte of `w` as its code (log entry 2: the spec has no binary word). -/
def lineOfWord (nbits w : Nat) : Line := (bytesOf ((nbits + 7) / 8) w).map Char.ofNat

/-- The instruction the decoder reads from the line that `w` numbers; `none` where it gives no instruction. -/
def decodeTableWord (nbits w : Nat) : Option Instr :=
  match decode (lineOfWord nbits w) with
  | .ok i => some i
  | .unknown => none
  | .malformed => none
  | .tooWide _ => none

end Sys2Proof
end

