-- ==== Sys2Proof/Machine/State.lean ====
section
/-!
DEFINITION. The state of the core (10_state.md rule R20), its ports (48_controller.md rule R181), the conditions
(60_exceptions.md rule R221), and the state right after reset (10_state.md rule R41).
-/
namespace Sys2Proof.Machine

/-- MODE, the Execution Controller's state (rule R35). -/
inductive Mode where
  /-- Awaiting a command. -/
  | idle
  /-- Executing one line. -/
  | stepping
  /-- Executing lines until a stop. -/
  | running
  /-- A run paused at the watermark. -/
  | awaitConfirm
  /-- Entered by a program-counter bounds violation; reads commands like Idle. -/
  | haltedBounds
  /-- Entered by HLT; absorbing. -/
  | haltedHLT
  /-- Entered by the quit command; absorbing. -/
  | quit
  /-- Entered by a class F fault; absorbing. -/
  | faulted
  deriving DecidableEq, Repr

/-- The inputs of CommandIn (rule R181, decision D17). -/
inductive Command where
  | step
  | run
  | quit
  /-- Any input that is none of the three. -/
  | other
  deriving DecidableEq, Repr

/-- ProgramIn (rules R180, R251): the program is received once, before the first command is read (log entry 3). -/
inductive ProgramPort where
  /-- The host has supplied no program yet. -/
  | absent
  /-- The host has supplied these lines; the load has not run. -/
  | supplied (lines : List Line)
  /-- The load has run. -/
  | taken
  deriving DecidableEq, Repr

/-- The class F conditions (rules R220, R221). The core stops on one by entering MODE Faulted (rule R190), which is
a NEXT state of `exec` and `step`: neither answers the host's outcome `fault` (log entry 8). -/
inductive Fault where
  /-- FAULT_MEM_BOUNDS, raised by `memRead` and `memWrite` for LDA and STR outside `[0, 255]` (rule R53). Safe: the
  model stops where the source gives the access no meaning (decision D4). -/
  | memBounds (address : Int)
  /-- FAULT_WIDTH, raised by a width test under Fixed(W) only (rule R225). Safe: the model stops where a realisation
  might wrap (decision D2). -/
  | width (value : Int)
  deriving DecidableEq, Repr

/-- Why an instruction has no meaning. -/
inductive Refusal where
  /-- Raised only by an arm of `exec` whose instruction has no meaning yet; no arm is left. Safe: no claim follows. -/
  | notModelled (mnemonic : String)
  deriving DecidableEq, Repr

/-- The conditions of rule R221, each with the information it records. -/
inductive Condition where
  | progTruncated (lineCount : Nat)
  | unknownOpcode (line : Line)
  | malformedOperand (line : Line)
  | storeOutOfRange (acc : Int)
  | jumpOutOfRange (target : Int)
  | pcBounds (pc : Int)
  | badCommand (input : Command)
  | fault (f : Fault)
  | watermarkPause
  | runCompleted
  | runDeclined
  | halted
  | sessionQuit
  deriving DecidableEq, Repr

/-- The three classes of rule R220. -/
inductive ConditionClass where
  /-- Class R. -/
  | reported
  /-- Class F. -/
  | fault
  /-- Class E. -/
  | event
  deriving DecidableEq, Repr

/-- The trace record of rule R182 (a). -/
structure TraceRecord where
  line : Line
  acc : Int
  dr : Int
  pc : Int
  z : Bool
  v : Bool
  deriving DecidableEq, Repr

/-- One bound name in a state dump: its address, and its word where the address is in data memory (rule R182 (b)). -/
structure DumpEntry where
  name : SymName
  address : Int
  word : Option Int
  deriving DecidableEq, Repr

/-- The state dump of rule R182 (b). The order of `names` means nothing (log entry 7). -/
structure Dump where
  acc : Int
  dr : Int
  pc : Int
  z : Bool
  v : Bool
  names : List DumpEntry
  deriving DecidableEq, Repr

/-- The status of the exit request (rules R168, R181). -/
inductive ExitStatus where
  | success
  deriving DecidableEq, Repr

/-- One transaction on an output port: TraceOut, DumpOut, CondOut or ExitOut (rule R181). -/
inductive Output where
  | trace (r : TraceRecord)
  | dump (d : Dump)
  | cond (c : Condition)
  | exit (status : ExitStatus)
  deriving DecidableEq, Repr

/-- All the core holds (rule R20), the word model of the instance, and its ports. -/
structure State where
  /-- ACC, the accumulator (rule R21). -/
  acc : Int
  /-- DR, the data register (rule R22). -/
  dr : Int
  /-- PC, the index of the line being dispatched or next to be (rules R24, R25). -/
  pc : Int
  /-- Z, the zero flag (rule R27). -/
  z : Bool
  /-- V, the overflow flag (rule R28). -/
  v : Bool
  /-- MEM (rule R30): address and word, addresses rising, no word listed that is 0 (log entry 6). -/
  mem : List (Nat × Int)
  /-- SYM (rule R31): name and address, names rising, no name twice (log entry 7). -/
  sym : List (SymName × Int)
  /-- NFA, nextFreeDataAddress (rule R32). -/
  nfa : Int
  /-- PROG, the loaded lines (rule R33). -/
  prog : List Line
  /-- MODE (rule R35). -/
  mode : Mode
  /-- WM, the watermark counter (rule R36). -/
  wm : Nat
  /-- WORD_MODEL of this instance (rule R10); nothing writes it (log entry 4). -/
  wordModel : WordModel
  /-- ProgramIn (rule R180). -/
  programIn : ProgramPort
  /-- CommandIn: inputs not yet read, oldest first (rule R183). -/
  commandIn : List Command
  /-- ConfirmIn: answers not yet read, oldest first (rule R188). -/
  confirmIn : List Bool
  /-- Everything emitted on the four output ports, oldest first (rules R181, R194). -/
  out : List Output
  deriving DecidableEq, Repr

/-- The state right after reset (rules R41, R250): nothing supplied, nothing emitted, the program not yet loaded. -/
def State.reset : State where
  acc := 0
  dr := 0
  pc := 0
  z := false
  v := false
  mem := []
  sym := []
  nfa := Config.dataBase
  prog := []
  mode := .idle
  wm := 0
  wordModel := Config.wordModel
  programIn := .absent
  commandIn := []
  confirmIn := []
  out := []

end Sys2Proof.Machine
end

