-- ==== Sys2Proof/Machine/Table.lean ====
section
/-!
DEFINITION. Finite maps as lists of key and value in one canonical form, keys strictly rising: the shape of the
data memory and of the symbol table.
-/
namespace Sys2Proof

/-- The value of the first entry with the key. -/
def Table.find? {κ ν : Type} [DecidableEq κ] (k : κ) : List (κ × ν) → Option ν
  | [] => none
  | e :: rest => if e.1 = k then some e.2 else Table.find? k rest

/-- Bind `k` to `x` in its place in the order `lt`, over an earlier binding of `k`. -/
def Table.insert {κ ν : Type} [DecidableEq κ] (lt : κ → κ → Bool) (k : κ) (x : ν) : List (κ × ν) → List (κ × ν)
  | [] => [(k, x)]
  | e :: rest =>
    if e.1 = k then (k, x) :: rest
    else if lt k e.1 then (k, x) :: e :: rest
    else e :: Table.insert lt k x rest

/-- Remove every entry with the key. -/
def Table.erase {κ ν : Type} [DecidableEq κ] (k : κ) (m : List (κ × ν)) : List (κ × ν) :=
  m.filter (fun e => decide (e.1 ≠ k))

/-- The canonical form: keys strictly rising, hence no key twice. -/
abbrev Table.Sorted {κ ν : Type} (lt : κ → κ → Bool) (m : List (κ × ν)) : Prop :=
  m.Pairwise (fun a b => lt a.1 b.1 = true)

/-- The order of addresses. -/
def natLt (a b : Nat) : Bool := decide (a < b)

/-- The order of names: by character code, a shorter name before its extensions. -/
def nameLt : List Char → List Char → Bool
  | _, [] => false
  | [], _ :: _ => true
  | a :: as, b :: bs =>
    if a.toNat < b.toNat then true
    else if a = b then nameLt as bs
    else false

end Sys2Proof
end

