-- ==== Sys2Proof/Machine/Ops.lean ====
section
/-!
DEFINITION. The named operations that instructions and controller share: emitting, raising a condition, stopping on
a fault, the data memory, the symbol table, the width test, and the two snapshots.
-/
namespace Sys2Proof.Machine

/-- The numeric code of a condition (60_exceptions.md rule R221). -/
def Condition.code : Condition → Nat
  | .progTruncated _ => 1
  | .unknownOpcode _ => 2
  | .malformedOperand _ => 3
  | .storeOutOfRange _ => 4
  | .jumpOutOfRange _ => 5
  | .pcBounds _ => 6
  | .badCommand _ => 7
  | .fault (.memBounds _) => 16
  | .fault (.width _) => 17
  | .watermarkPause => 32
  | .runCompleted => 33
  | .runDeclined => 34
  | .halted => 35
  | .sessionQuit => 36

/-- The class of a condition (rules R220, R221). -/
def Condition.cls : Condition → ConditionClass
  | .progTruncated _ => .reported
  | .unknownOpcode _ => .reported
  | .malformedOperand _ => .reported
  | .storeOutOfRange _ => .reported
  | .jumpOutOfRange _ => .reported
  | .pcBounds _ => .reported
  | .badCommand _ => .reported
  | .fault _ => .fault
  | .watermarkPause => .event
  | .runCompleted => .event
  | .runDeclined => .event
  | .halted => .event
  | .sessionQuit => .event

/-- `emit Port(x)` (rule R16). -/
def State.emit (o : Output) (s : State) : State := { s with out := s.out ++ [o] }

/-- Emit a condition on CondOut: all that raising a class R or class E condition does (rules R14, R220). -/
def State.raise (c : Condition) (s : State) : State := s.emit (.cond c)

/-- `MODE <- m`. -/
def State.enter (m : Mode) (s : State) : State := { s with mode := m }

/-- Raising a class F condition (rules R14, R190): its code is emitted and the core stops in Faulted. Nothing is
saved and no handler runs (rule R233), so there is no return from it (rules R234, R244). -/
def State.takeFault (f : Fault) (s : State) : State := (s.raise (.fault f)).enter .faulted

/-- `checkW(v)` before the statements `k` that it guards (rules R15, R225, R233). -/
def State.checkW (v : Int) (k : State → State) (s : State) : State :=
  if s.wordModel.fits v then k s else s.takeFault (.width v)

/-- The canonical form of the data memory: addresses strictly rising and below MEM_SIZE, no listed word 0. -/
abbrev Memory.wf (m : List (Nat × Int)) : Prop :=
  Table.Sorted natLt m ∧ ∀ e ∈ m, e.1 < Config.memSize ∧ e.2 ≠ 0

/-- The word at `a`; a word not listed holds its reset value 0 (rules R41, R60). -/
def Memory.read (m : List (Nat × Int)) (a : Nat) : Int := (Table.find? a m).getD 0

/-- Put `x` at `a`, keeping the canonical form. -/
def Memory.write (m : List (Nat × Int)) (a : Nat) (x : Int) : List (Nat × Int) :=
  if x = 0 then Table.erase a m else Table.insert natLt a x m

/-- An address of data memory: the bounds test of rule R53. -/
def addressInBounds (a : Int) : Bool := decide (0 ≤ a) && decide (a < (Config.memSize : Int))

/-- `MemRead(a, 1)` (rule R53). -/
def memRead (a : Int) (s : State) : Except Fault Int :=
  if addressInBounds a then .ok (Memory.read s.mem a.toNat) else .error (.memBounds a)

/-- `MemWrite(a, 1, x)` (rule R53). -/
def memWrite (a x : Int) (s : State) : Except Fault State :=
  if addressInBounds a then .ok { s with mem := Memory.write s.mem a.toNat x } else .error (.memBounds a)

/-- The canonical form of the symbol table: names strictly rising. -/
abbrev SymTable.wf (t : List (SymName × Int)) : Prop := Table.Sorted nameLt t

/-- `SYM[n]`, if `n` is bound (rules R12, R31). -/
def State.binding? (n : SymName) (s : State) : Option Int := Table.find? n s.sym

/-- `SYM[n] <- a`: binds the name, or overwrites its binding (rules R31, R100). -/
def State.bind (n : SymName) (a : Int) (s : State) : State :=
  { s with sym := Table.insert nameLt n a s.sym }

/-- The trace record of a line: the registers and flags as they are (rule R182 (a)). -/
def State.traceRecord (line : Line) (s : State) : TraceRecord where
  line := line
  acc := s.acc
  dr := s.dr
  pc := s.pc
  z := s.z
  v := s.v

/-- What a dump shows of one binding: no word, and no fault, for an address outside data memory (rule R182 (b)). -/
def State.dumpEntry (s : State) (b : SymName × Int) : DumpEntry where
  name := b.1
  address := b.2
  word := if addressInBounds b.2 then some (Memory.read s.mem b.2.toNat) else none

/-- The state dump (rule R182 (b)). -/
def State.dump (s : State) : Dump where
  acc := s.acc
  dr := s.dr
  pc := s.pc
  z := s.z
  v := s.v
  names := s.sym.map s.dumpEntry

/-- `emit Trace(line, ACC, DR, PC, Z, V)` (rule R186). -/
def State.emitTrace (line : Line) (s : State) : State := s.emit (.trace (s.traceRecord line))

/-- `emit Dump(state)`. -/
def State.emitDump (s : State) : State := s.emit (.dump s.dump)

end Sys2Proof.Machine
end

