-- ==== Sys2Proof/Machine/Flags.lean ====
section
/-!
DEFINITION. The two flag setters (42_arithmetic.md rules R110, R111), the only writers of Z and V.
-/
namespace Sys2Proof.Machine

/-- `updateZeroFlag(result)` (rule R110). -/
def State.updateZeroFlag (result : Int) (s : State) : State := { s with z := decide (result = 0) }

/-- `updateOverflowFlag(result)` (rule R111). -/
def State.updateOverflowFlag (result : Int) (s : State) : State := { s with v := !inRange result }

end Sys2Proof.Machine
end

