-- ==== Sys2Proof/Machine/Arithmetic.lean ====
section
/-!
DEFINITION. ADD and SUB (42_arithmetic.md).
-/
namespace Sys2Proof.Machine

/-- Store an exact result in ACC and set V from it and Z from the stored accumulator (rules R110 to R112). -/
def State.storeResult (result : Int) (s : State) : State :=
  let s := { s with acc := result }
  let s := s.updateOverflowFlag result
  s.updateZeroFlag s.acc

/-- ADD (rule R112). -/
def execAdd (s : State) : Host.Outcome State Fault Refusal :=
  .next (s.checkW (s.acc + s.dr) (State.storeResult (s.acc + s.dr)))

/-- SUB: ACC minus DR (rule R116). -/
def execSub (s : State) : Host.Outcome State Fault Refusal :=
  .next (s.checkW (s.acc - s.dr) (State.storeResult (s.acc - s.dr)))

end Sys2Proof.Machine
end

