-- ==== Sys2Proof/Machine/Operands.lean ====
section
/-!
DEFINITION. The operand forms: a name as a data address (43_load_store.md, symbolic direct), and an integer as a
jump target (45_control.md). LDI's immediate operand is its value as decoded (30_encoding.md rule R75).
-/
namespace Sys2Proof.Machine

/-- `lookup(n)` (00_scope.md rule R13): the bound address, or 0 for a name with no binding, which stays unbound
(43_load_store.md rules R131, R141, decision D5). -/
def State.lookup (n : SymName) (s : State) : Int := (s.binding? n).getD Config.undeclaredAddress

/-- The word a name denotes, as LDA reads it (rule R130). -/
def loadNamed (n : SymName) (s : State) : Except Fault Int := memRead (s.lookup n) s

/-- Store a value in the word a name denotes, as STR does (rule R140). -/
def storeNamed (n : SymName) (x : Int) (s : State) : Except Fault State := memWrite (s.lookup n) x s

/-- The legal JMP targets, `0` to PC_MAX (rule R160). -/
def jumpInRange (n : Int) : Bool := decide (0 ≤ n) && decide (n ≤ Config.pcMax)

/-- What a jump to line `n` writes to PC: the controller's advance then makes it `n` (rules R160, R164). -/
def jumpWrite (n : Int) : Int := n - 1

end Sys2Proof.Machine
end

