-- ==== Sys2Proof/Machine/Control.lean ====
section
/-!
DEFINITION. JMP, JZS and HLT (45_control.md).
-/
namespace Sys2Proof.Machine

/-- `PC <- p`. -/
def State.setPc (p : Int) (s : State) : State := { s with pc := p }

/-- JMP `n` (rules R160 to R162). -/
def execJmp (n : Int) (s : State) : Host.Outcome State Fault Refusal :=
  if jumpInRange n then .next (s.setPc (jumpWrite n))
  else .next (s.raise (.jumpOutOfRange n))

/-- JZS `n` (rules R164 to R166): no bounds check, a width test under Fixed(W). -/
def execJzs (n : Int) (s : State) : Host.Outcome State Fault Refusal :=
  if s.z then .next (s.checkW (jumpWrite n) (State.setPc (jumpWrite n)))
  else .next s

/-- HLT (rules R168, R169): final dump, HALTED, exit request, and MODE HaltedHLT for good. -/
def execHlt (s : State) : Host.Outcome State Fault Refusal :=
  .next (((s.emitDump.raise .halted).emit (.exit .success)).enter .haltedHLT)

end Sys2Proof.Machine
end

