-- ==== Sys2Proof/Machine/Declare.lean ====
section
/-!
DEFINITION. DEC (41_declare.md).
-/
namespace Sys2Proof.Machine

/-- The two writes of DEC: the name takes the next free address, and the counter advances (rule R100). -/
def State.declare (n : SymName) (s : State) : State :=
  { s.bind n s.nfa with nfa := s.nfa + 1 }

/-- DEC `n` (rules R100 to R104). Under Fixed(W) an increment that does not fit leaves the name as it was
(rules R102, R233; log entry 13). -/
def execDec (n : SymName) (s : State) : Host.Outcome State Fault Refusal :=
  .next (s.checkW (s.nfa + 1) (State.declare n))

end Sys2Proof.Machine
end

