-- ==== Sys2Proof/Machine/Exchange.lean ====
section
/-!
DEFINITION. XCH (44_exchange.md).
-/
namespace Sys2Proof.Machine

/-- XCH (rule R150). -/
def execXch (s : State) : Host.Outcome State Fault Refusal :=
  .next { s with acc := s.dr, dr := s.acc }

end Sys2Proof.Machine
end

