-- ==== Sys2Proof/Machine/LoadStore.lean ====
section
/-!
DEFINITION. LDA, LDI and STR (43_load_store.md).
-/
namespace Sys2Proof.Machine

/-- LDA `n` (rules R130 to R132). -/
def execLda (n : SymName) (s : State) : Host.Outcome State Fault Refusal :=
  match loadNamed n s with
  | .ok x => .next { s with acc := x }
  | .error f => .next (s.takeFault f)

/-- LDI `n` (rule R135). -/
def execLdi (n : Int) (s : State) : Host.Outcome State Fault Refusal :=
  .next { s with acc := n }

/-- STR `n`: the range test of ACC comes before the address (rules R140, R141, R232). -/
def execStr (n : SymName) (s : State) : Host.Outcome State Fault Refusal :=
  if inRange s.acc then
    match storeNamed n s.acc s with
    | .ok t => .next t
    | .error f => .next (s.takeFault f)
  else .next (s.raise (.storeOutOfRange s.acc))

end Sys2Proof.Machine
end

