-- ==== Sys2Proof/Machine/Dispatch.lean ====
section
/-!
DEFINITION. The effect of each instruction (00_scope.md rule R17: the instruction's own effect, before the controller's
advance): one arm per row of the opcode table.
-/
namespace Sys2Proof.Machine

def exec (i : Instr) (s : State) : Host.Outcome State Fault Refusal :=
  match i with
  | .dec n => Sys2Proof.Machine.execDec n s
  | .add => Sys2Proof.Machine.execAdd s
  | .sub => Sys2Proof.Machine.execSub s
  | .lda n => Sys2Proof.Machine.execLda n s
  | .ldi n => Sys2Proof.Machine.execLdi n s
  | .str n => Sys2Proof.Machine.execStr n s
  | .xch => Sys2Proof.Machine.execXch s
  | .jmp n => Sys2Proof.Machine.execJmp n s
  | .jzs n => Sys2Proof.Machine.execJzs n s
  | .hlt => Sys2Proof.Machine.execHlt s

end Sys2Proof.Machine
end

