-- ==== Sys2Proof/Machine/Controller.lean ====
section
/-!
DEFINITION. The Execution Controller (48_controller.md): program load, commands, the dispatch cycle, Step, Run, the
watermark pause and Quit. Each definition is one transition, or a part of one (log entry 9).
-/
namespace Sys2Proof.Machine

/-- What a dispatch or a transition of the controller answers. -/
abbrev Result := Host.Outcome State Fault Refusal

/-- HLT and faults do not return to the controller (rules R168, R190); Quit is absorbing with them (rule R191). -/
def Mode.absorbing : Mode → Bool
  | .haltedHLT => true
  | .quit => true
  | .faulted => true
  | .idle => false
  | .stepping => false
  | .running => false
  | .awaitConfirm => false
  | .haltedBounds => false

/-- Go on with `k` if the dispatch returned; if it ended the session, its state stands (rules R184, R186, R187). -/
def onReturn (r : Result) (k : State → State) : Result :=
  match r with
  | .next t => .next (if t.mode.absorbing then t else k t)
  | .fault f => .fault f
  | .refused x => .refused x

/-- One program line as PC indexes it (rule R186): `none` outside `[0, len(PROG) - 1]`. -/
def State.fetch? (s : State) : Option Line :=
  if 0 ≤ s.pc then s.prog[s.pc.toNat]? else none

/-- Decode a line and perform its instruction; an unknown or malformed line is reported and changes nothing else
(rule R186; 30_encoding.md rules R79 to R81). -/
def dispatchLine (line : Line) (s : State) : Result :=
  match decodeIn s.wordModel line with
  | .ok i => exec i s
  | .unknown => .next (s.raise (.unknownOpcode line))
  | .malformed => .next (s.raise (.malformedOperand line))
  | .tooWide n => .next (s.takeFault (.width n))

/-- The advance `PC <- PC + 1` with its width test (rules R26, R186; log entry 12). -/
def State.advance (s : State) : State := s.checkW (s.pc + 1) (State.setPc (s.pc + 1))

/-- DispatchAndAdvance of one line (rule R186). -/
def dispatchAndAdvance (line : Line) (s : State) : Result :=
  onReturn (dispatchLine line s) (fun t => (t.emitTrace line).advance)

/-- The reported bounds violation (rules R184, R187, R227): nothing but MODE changes. -/
def State.boundsViolation (s : State) : State := (s.raise (.pcBounds s.pc)).enter .haltedBounds

/-- Step, from MODE Stepping on (rule R184). -/
def stepOnce (s : State) : Result :=
  match s.fetch? with
  | none => .next s.boundsViolation
  | some line => onReturn (dispatchAndAdvance line s) (fun t => t.emitDump.enter .idle)

/-- The beginning of Pause, before the answer is read (rule R188). -/
def State.pause (s : State) : State := (s.emitDump.raise .watermarkPause).enter .awaitConfirm

/-- After a dispatch of Run: count it, and pause at the watermark (rules R187, R188). -/
def State.countDispatch (s : State) : State :=
  let s := { s with wm := s.wm + 1 }
  if s.wm = Config.watermark then s.pause else s

/-- PC outside `[0, PC_MAX]`: the first loop test of Run (rule R187). -/
def State.outOfRunRange (s : State) : Bool :=
  decide (s.pc < 0) || decide ((Config.progMax : Int) ≤ s.pc)

/-- One pass of Run's loop (rule R187): bounds test, completion test, dispatch, watermark. -/
def runOnce (s : State) : Result :=
  if s.outOfRunRange then .next s.boundsViolation
  else
    match s.fetch? with
    | none => .next ((s.raise .runCompleted).enter .idle)
    | some line => onReturn (dispatchAndAdvance line s) State.countDispatch

/-- The rest of Pause: the answer from ConfirmIn; with none supplied yet the core waits (rules R181, R188; log entry 10). -/
def confirm (s : State) : State :=
  match s.confirmIn with
  | [] => s
  | true :: rest => { s with confirmIn := rest, wm := 0, mode := .running }
  | false :: rest => ({ s with confirmIn := rest }.raise .runDeclined).enter .idle

/-- Quit (rule R189). -/
def State.quitSession (s : State) : State := (s.emitDump.raise .sessionQuit).enter .quit

/-- One command (rules R183, R184, R187, R189): Step and Run enter their modes, Quit ends the session, any other
input is rejected. -/
def perform (c : Command) (s : State) : State :=
  match c with
  | .step => s.enter .stepping
  | .run => { s with mode := .running, wm := 0 }
  | .quit => s.quitSession
  | .other => s.raise (.badCommand .other)

/-- Load (rule R180): at most PROG_MAX lines are kept, and a longer program is warned about. -/
def State.load (lines : List Line) (s : State) : State :=
  let s := { s with programIn := .taken, prog := lines.take Config.progMax }
  if Config.progMax < lines.length then s.raise (.progTruncated lines.length) else s

/-- MODE Idle or HaltedBounds: the program is loaded before the first command is read (rule R251), then one command
is read and performed (rules R183, R192); with no input supplied yet the core waits (rule R181; log entry 10). -/
def await (s : State) : State :=
  match s.programIn with
  | .absent => s
  | .supplied lines => s.load lines
  | .taken =>
    match s.commandIn with
    | [] => s
    | c :: rest => perform c { s with commandIn := rest }

/-- One transition of the core (rules R191, R192). -/
def transition (s : State) : Result :=
  match s.mode with
  | .idle => .next (await s)
  | .haltedBounds => .next (await s)
  | .stepping => stepOnce s
  | .running => runOnce s
  | .awaitConfirm => .next (confirm s)
  | .haltedHLT => .next s
  | .quit => .next s
  | .faulted => .next s

/-- What the host may do between two transitions (rule R196). -/
inductive HostAction where
  /-- Supply the program, once. -/
  | program (lines : List Line)
  /-- Send a command. -/
  | command (c : Command)
  /-- Send a confirmation answer. -/
  | answer (affirmative : Bool)
  deriving DecidableEq, Repr

/-- The host supplies an input; a second program is not received (rules R180, R196). -/
def State.host (a : HostAction) (s : State) : State :=
  match a with
  | .program lines =>
    match s.programIn with
    | .absent => { s with programIn := .supplied lines }
    | .supplied _ => s
    | .taken => s
  | .command c => { s with commandIn := s.commandIn ++ [c] }
  | .answer b => { s with confirmIn := s.confirmIn ++ [b] }

/-- A session right after reset, with the inputs that the host will give it (rules R192, R250). -/
def State.session (wm : WordModel) (lines : List Line) (commands : List Command) (answers : List Bool) : State :=
  { State.reset with
    wordModel := wm, programIn := .supplied lines, commandIn := commands, confirmIn := answers }

/-- The program store with `line` at index `k`, empty lines before it where the store is shorter. -/
def placeLine (prog : List Line) (k : Nat) (line : Line) : List Line :=
  (prog ++ List.replicate (k + 1 - prog.length) []).set k line

/-- A state whose next transition dispatches `line` (log entry 2): the line stands where PC points, PC is 0 where it
points outside `[0, PC_MAX]`, and MODE is Stepping unless a run is in progress. -/
def State.withLine (line : Line) (s : State) : State :=
  let s := if s.outOfRunRange then s.setPc 0 else s
  { s with
    prog := placeLine s.prog s.pc.toNat line
    programIn := .taken
    mode := if s.mode = .running then .running else .stepping }

end Sys2Proof.Machine
end

