-- ==== Sys2Proof/Machine/Step.lean ====
section
/-!
DEFINITION. The step of the core: one transition of the Execution Controller (48_controller.md rules R191, R192).
-/
namespace Sys2Proof.Machine

/-- One step. -/
def step (s : State) : Host.Outcome State Fault Refusal := transition s

/-- The state whose very next step runs the line that `w` numbers (log entry 2). -/
def State.withFetchWord (s : State) (nbits w : Nat) : State := s.withLine (lineOfWord nbits w)

end Sys2Proof.Machine
end

