-- ==== Sys2Proof/Safety.lean ====
section
/-!
DEFINITION. What claims speak of: runs of many steps, how a session ends, and the invariant of the machine, in
parts that a decision procedure can test on a given state.
-/
namespace Sys2Proof.Machine

/-- `k` steps, stopping where one answers no next state. -/
def steps : Nat → State → Result
  | 0, s => .next s
  | k + 1, s =>
    match step s with
    | .next t => steps k t
    | .fault f => .fault f
    | .refused x => .refused x

/-- A session ends exactly in the absorbing modes (48_controller.md rule R194). -/
def State.sessionEnded (s : State) : Bool := s.mode.absorbing

/-- Faulted is never final: no postcondition holds of a session that reaches it (rule R190). -/
def State.safe (s : State) : Bool := decide (s.mode ≠ .faulted)

/-- The data memory: canonical, every word in range (10_state.md rule R39), and no word but word 0 written that
DEC has not handed out (20_memory.md rule R57, 41_declare.md rule R103). -/
abbrev State.MemoryInv (s : State) : Prop :=
  Memory.wf s.mem ∧
    ∀ e ∈ s.mem, inRange e.2 = true ∧ (e.1 = 0 ∨ (Config.dataBase ≤ (e.1 : Int) ∧ (e.1 : Int) < s.nfa))

/-- The symbol table: canonical, every bound address handed out by DEC (10_state.md rule R40). -/
abbrev State.SymbolInv (s : State) : Prop :=
  SymTable.wf s.sym ∧ Config.dataBase ≤ s.nfa ∧ ∀ b ∈ s.sym, Config.dataBase ≤ b.2 ∧ b.2 < s.nfa

/-- The controller: program length (10_state.md rule R33), watermark counter (rule R36), and no mode but Idle, and no
program, before the load (70_reset_and_hazards.md rule R251). -/
abbrev State.ControlInv (s : State) : Prop :=
  s.prog.length ≤ Config.progMax ∧ s.wm ≤ Config.watermark ∧
    (s.mode = .running → s.wm < Config.watermark) ∧
    (s.mode = .awaitConfirm → s.wm = Config.watermark) ∧
    (s.programIn ≠ .taken → s.mode = .idle ∧ s.prog = [])

/-- The word model is legal and every register fits it (00_scope.md rules R10, R15). -/
abbrev State.WidthInv (s : State) : Prop :=
  s.wordModel.legal = true ∧ s.wordModel.fits s.acc = true ∧ s.wordModel.fits s.dr = true ∧
    s.wordModel.fits s.pc = true ∧ s.wordModel.fits s.nfa = true

/-- The invariant of the machine. -/
abbrev State.Inv (s : State) : Prop := s.MemoryInv ∧ s.SymbolInv ∧ s.ControlInv ∧ s.WidthInv

/-- The output is the trace record of a returning DEC. -/
def Output.isDecTrace : Output → Bool
  | .trace r =>
    match decode r.line with
    | .ok (.dec _) => true
    | _ => false
  | .dump _ => false
  | .cond _ => false
  | .exit _ => false

/-- How many DEC instructions have been executed: each returning dispatch emits one trace record (rule R182). -/
def State.declarations (s : State) : Nat := s.out.countP Output.isDecTrace

/-- The output is a condition of class R or F (60_exceptions.md rule R232). -/
def Output.isReportOrFault : Output → Bool
  | .cond c => decide (c.cls ≠ .event)
  | .trace _ => false
  | .dump _ => false
  | .exit _ => false

end Sys2Proof.Machine
end

