-- ==== Sys2Proof/Certificates/Slice0/Obligations.lean ====
section
/-!
DEFINITION. The statements for the provers, from the numbered rules of spec/. Each docstring names the rule it
formalises; a clause that rests on one of the model's own choices names its log entry.
-/
open Sys2Proof Sys2Proof.Machine

namespace Sys2Proof.Claims

/-- Format T0 (rule R73): the keyword alone selects the instruction, whatever follows. -/
def SelectsPlain (keyword : List Char) (i : Instr) : Prop :=
  ∀ (wm : WordModel) (line : Line) (rest : List (List Char)),
    splitWs line = keyword :: rest → decodeIn wm line = .ok i

/-- Format TS (rules R73, R74, R81): the next token is the name, as it is; without one the line is malformed. -/
def SelectsName (keyword : List Char) (k : SymName → Instr) : Prop :=
  ∀ (wm : WordModel) (line : Line) (rest : List (List Char)), splitWs line = keyword :: rest →
    decodeIn wm line = match rest with
      | [] => .malformed
      | name :: _ => .ok (k name)

/-- Format TI (rules R73, R75, R80): the next token is the integer, tested for its spelling and then its width. -/
def SelectsInt (keyword : List Char) (k : Int → Instr) : Prop :=
  ∀ (wm : WordModel) (line : Line) (rest : List (List Char)), splitWs line = keyword :: rest →
    decodeIn wm line = match rest with
      | [] => .malformed
      | t :: _ => match parseInt t with
        | none => .malformed
        | some n => if wm.fits n then .ok (k n) else .tooWide n

/-- The state that a class F fault leaves (rules R14, R190): the code emitted, MODE Faulted, nothing else written. That
it is a next state is log entry 8. -/
def faultedBy (f : Fault) (s : State) : State :=
  { s with mode := .faulted, out := s.out ++ [.cond (.fault f)] }

/-- The next step dispatches `line`: PC is the index of `line`, and MODE is Stepping, or Running with PC in its legal
range (rules R184, R185, R187). -/
def Dispatches (line : Line) (s : State) : Prop :=
  0 ≤ s.pc ∧ s.prog[s.pc.toNat]? = some line ∧ (s.mode = .stepping ∨ (s.mode = .running ∧ s.pc < 128))

/-- The two modes in which the controller reads a command (rule R183), after the load (rule R251). -/
def Commanding (s : State) : Prop := (s.mode = .idle ∨ s.mode = .haltedBounds) ∧ s.programIn = .taken

/-- What the step of a returning dispatch adds after the advance: in Stepping a dump and MODE Idle (rule R184), in
Running the count, and at the watermark a dump, the event and MODE AwaitConfirm (rules R187, R188). -/
def afterAdvance (mode : Mode) (t : State) : State :=
  if mode = .stepping then { t with mode := .idle, out := t.out ++ [.dump t.dump] }
  else if t.wm + 1 = 1000 then
    { t with wm := 1000, mode := .awaitConfirm, out := t.out ++ [.dump t.dump, .cond .watermarkPause] }
  else { t with wm := t.wm + 1 }

/-- The trace record and the advance of a returning dispatch (rules R182, R186). -/
def tracedAndAdvanced (line : Line) (t : State) : State :=
  { t with pc := t.pc + 1, out := t.out ++ [.trace ⟨line, t.acc, t.dr, t.pc, t.z, t.v⟩] }

/-- The output as it would be with V at `b`: only a dump shows V, among what instructions emit (rules R28, R182). -/
def showingV (b : Bool) : Output → Output
  | .dump d => .dump { d with v := b }
  | .trace r => .trace r
  | .cond c => .cond c
  | .exit e => .exit e

/-- The instructions that write V (rule R28): ADD and SUB, where the width test lets the result through. -/
def WritesV (i : Instr) (s : State) : Prop :=
  (i = .add ∧ s.wordModel.fits (s.acc + s.dr) = true) ∨ (i = .sub ∧ s.wordModel.fits (s.acc - s.dr) = true)

end Sys2Proof.Claims

open Sys2Proof.Claims

/-! ### Encoding -/

/-- Rules R78, R87: decoding the line of any well-formed instruction, with any operand, gives it back. -/
def Obligations.DecodeOfEncode : Prop :=
  ∀ (wm : WordModel) (i : Instr), i.wf = true → i.fitsIn wm = true → decodeIn wm (encode i) = .ok i

/-- Rules R74, R75, R78: what the decoder gives is well formed, and its literal fits. -/
def Obligations.DecodedInstructionIsWellFormed : Prop :=
  ∀ (wm : WordModel) (line : Line) (i : Instr),
    decodeIn wm line = .ok i → i.wf = true ∧ i.fitsIn wm = true

/-- Rule R82: text after whitespace behind a complete instruction is ignored. -/
def Obligations.ExtraTokensIgnored : Prop :=
  ∀ (wm : WordModel) (i : Instr) (c : Char) (rest : List Char),
    i.wf = true → i.fitsIn wm = true → isWs c = true → decodeIn wm (encode i ++ c :: rest) = .ok i

/-- Rule R71 (the six characters are decision D6): the equations that fix the tokens of every line. -/
def Obligations.TokensAreMaximalRuns : Prop :=
  (∀ c : Char, isWs c = true ↔
    c ∈ [' ', '\t', '\n', Char.ofNat 0x0B, Char.ofNat 0x0C, '\r']) ∧
  splitWs [] = [] ∧
  (∀ (c : Char) (cs : List Char), isWs c = true → splitWs (c :: cs) = splitWs cs) ∧
  (∀ t : List Char, isToken t = true → splitWs t = [t]) ∧
  (∀ (t : List Char) (c : Char) (cs : List Char),
    isToken t = true → isWs c = true → splitWs (t ++ c :: cs) = t :: splitWs cs)

/-- Rules R77, R79: a line is unknown exactly when it has no token or its first is none of the ten keywords. -/
def Obligations.UnknownExactlyWithoutKeyword : Prop :=
  ∀ (wm : WordModel) (line : Line),
    decodeIn wm line = .unknown ↔
      ∀ op ∈ (splitWs line).head?, op ∉ ["DEC".toList, "ADD".toList, "SUB".toList, "LDA".toList, "LDI".toList,
        "STR".toList, "XCH".toList, "JMP".toList, "JZS".toList, "HLT".toList]

/-- Rules R80, R81: a line is malformed exactly when a required operand is missing or, for LDI, JMP and JZS, does
not have the spelling of an integer. -/
def Obligations.MalformedExactlyOnBadOperand : Prop :=
  ∀ (wm : WordModel) (line : Line),
    decodeIn wm line = .malformed ↔
      ∃ op operands, splitWs line = op :: operands ∧
        ((op ∈ ["DEC".toList, "LDA".toList, "STR".toList] ∧ operands = []) ∨
         (op ∈ ["LDI".toList, "JMP".toList, "JZS".toList] ∧ ∀ t ∈ operands.head?, parseInt t = none))

/-- Rule R75 (decision D7): the spelling `[+-]?[0-9]+`, no other, and the exact integer it denotes. -/
def Obligations.IntegerSpelling : Prop :=
  (∀ ds : List (Fin 10), ds ≠ [] →
    let text := ds.map (fun d => digitChar d.val)
    let n : Nat := ds.foldl (fun a d => 10 * a + d.val) 0
    parseInt text = some (n : Int) ∧ parseInt ('+' :: text) = some (n : Int) ∧
      parseInt ('-' :: text) = some (-(n : Int))) ∧
  (∀ (t : List Char) (n : Int), parseInt t = some n →
    ∃ ds : List (Fin 10), ds ≠ [] ∧
      (t = ds.map (fun d => digitChar d.val) ∨ t = '+' :: ds.map (fun d => digitChar d.val) ∨
        t = '-' :: ds.map (fun d => digitChar d.val)))

/-- Lines of each format, from 95_test_vectors.md section 2. -/
def Obligations.SampleLinesDecode : Prop :=
  decode "ADD 5".toList = .ok .add ∧ decode "STR x y".toList = .ok (.str "x".toList) ∧
    decode "LDI -7".toList = .ok (.ldi (-7)) ∧ decode "add".toList = .unknown ∧
    decode "LDI 12abc".toList = .malformed

/-- Rule R15: two's-complement bounds under Fixed(W), no bound under Unbounded, and `checkW`, which stops the core on
a value that does not fit. -/
def Obligations.WidthTest : Prop :=
  (∀ v : Int, WordModel.unbounded.fits v = true) ∧
  (∀ (W : Nat) (v : Int), 17 ≤ W →
    ((WordModel.fixed W).fits v = true ↔ -(2 : Int) ^ (W - 1) ≤ v ∧ v ≤ (2 : Int) ^ (W - 1) - 1)) ∧
  ∀ (v : Int) (k : State → State) (s : State),
    (s.wordModel.fits v = true → s.checkW v k = k s) ∧
    (s.wordModel.fits v = false → s.checkW v k = faultedBy (.width v) s)

/-! ### Reset and load -/

/-- Rules R41, R250 (reset values of decision D3), R180, R251 (log entry 3: the load is a step): the state after
reset, and the step that loads a supplied program of any length, from every state in Idle. -/
def Obligations.ResetAndLoad : Prop :=
  (State.reset.acc = 0 ∧ State.reset.dr = 0 ∧ State.reset.pc = 0 ∧ State.reset.z = false ∧
    State.reset.v = false ∧ (∀ a, Memory.read State.reset.mem a = 0) ∧
    (∀ n, State.reset.binding? n = none) ∧ State.reset.nfa = 128 ∧ State.reset.mode = .idle ∧
    State.reset.wm = 0) ∧
  ∀ (s : State) (lines : List Line), s.mode = .idle → s.programIn = .supplied lines →
    step s = .next { s with
      programIn := .taken
      prog := lines.take 128
      out := s.out ++ if 128 < lines.length then [.cond (.progTruncated lines.length)] else [] }

/-- The invariants of this file hold right after reset and at the start of every session. -/
def Obligations.InvariantsHoldAtReset : Prop :=
  State.reset.Inv ∧ State.reset.nfa = 128 + (State.reset.declarations : Int) ∧
  ∀ (wm : WordModel) (lines : List Line) (commands : List Command) (answers : List Bool),
    wm.legal = true → (State.session wm lines commands answers).Inv ∧
      (State.session wm lines commands answers).nfa =
        128 + ((State.session wm lines commands answers).declarations : Int)

/-! ### The instructions -/

/-- Rule R100: DEC binds the name to NFA, over an earlier binding, and advances NFA; it writes nothing else. -/
def Obligations.DecBindsNextAddress : Prop :=
  SelectsName "DEC".toList .dec ∧
  (∀ (n : SymName) (s : State), s.wordModel.fits (s.nfa + 1) = true →
    ∃ t, exec (.dec n) s = .next t ∧ t = { s with sym := t.sym, nfa := s.nfa + 1 } ∧
      t.binding? n = some s.nfa ∧ ∀ m, m ≠ n → t.binding? m = s.binding? m)

/-- Rule R102, under Fixed(W): an increment of NFA that does not fit faults. That the name is then not bound is an
inference (the spec's in rule R233, the model's in log entry 13). -/
def Obligations.DecFaultsOnWideCounter : Prop :=
  ∀ (n : SymName) (s : State), s.wordModel.fits (s.nfa + 1) = false →
    exec (.dec n) s = .next (faultedBy (.width (s.nfa + 1)) s)

/-- Rule R112: ADD stores the exact sum, V from the raw sum, Z from the stored accumulator; under Fixed(W) a sum
that does not fit faults before any write. -/
def Obligations.AddStoresExactSum : Prop :=
  SelectsPlain "ADD".toList .add ∧
  (∀ s : State, s.wordModel.fits (s.acc + s.dr) = true →
    exec .add s = .next { s with
      acc := s.acc + s.dr
      v := !decide (-32768 ≤ s.acc + s.dr ∧ s.acc + s.dr ≤ 32767)
      z := decide (s.acc + s.dr = 0) }) ∧
  (∀ s : State, s.wordModel.fits (s.acc + s.dr) = false →
    exec .add s = .next (faultedBy (.width (s.acc + s.dr)) s))

/-- Rule R116: SUB stores the exact difference ACC minus DR, with the flags as ADD sets them. -/
def Obligations.SubStoresExactDifference : Prop :=
  SelectsPlain "SUB".toList .sub ∧
  (∀ s : State, s.wordModel.fits (s.acc - s.dr) = true →
    exec .sub s = .next { s with
      acc := s.acc - s.dr
      v := !decide (-32768 ≤ s.acc - s.dr ∧ s.acc - s.dr ≤ 32767)
      z := decide (s.acc - s.dr = 0) }) ∧
  (∀ s : State, s.wordModel.fits (s.acc - s.dr) = false →
    exec .sub s = .next (faultedBy (.width (s.acc - s.dr)) s))

/-- Rule R130: LDA loads the word at the bound address, or at 0 for a name with no binding, and changes nothing
else; an address outside data memory faults (decision D4). -/
def Obligations.LdaLoadsNamedWord : Prop :=
  SelectsName "LDA".toList .lda ∧
  (∀ (n : SymName) (s : State), let a := (s.binding? n).getD 0
    (0 ≤ a ∧ a ≤ 255 → exec (.lda n) s = .next { s with acc := Memory.read s.mem a.toNat }) ∧
    (¬ (0 ≤ a ∧ a ≤ 255) → exec (.lda n) s = .next (faultedBy (.memBounds a) s)))

/-- Rule R135: LDI loads its literal, with no check and no flag. -/
def Obligations.LdiLoadsLiteral : Prop :=
  SelectsInt "LDI".toList .ldi ∧
  ∀ (n : Int) (s : State), exec (.ldi n) s = .next { s with acc := n }

/-- Rules R140, R141: STR reports an accumulator out of range and skips the store; otherwise it writes the word at
the bound address, or at 0 for a name with no binding, and no other word; an address outside data memory faults
(decision D4), after the range test (decision D16). -/
def Obligations.StrStoresInRangeAccumulator : Prop :=
  SelectsName "STR".toList .str ∧
  (∀ (n : SymName) (s : State), let a := (s.binding? n).getD 0
    (¬ (-32768 ≤ s.acc ∧ s.acc ≤ 32767) →
      exec (.str n) s = .next { s with out := s.out ++ [.cond (.storeOutOfRange s.acc)] }) ∧
    (-32768 ≤ s.acc ∧ s.acc ≤ 32767 → 0 ≤ a ∧ a ≤ 255 →
      ∃ t, exec (.str n) s = .next t ∧ t = { s with mem := t.mem } ∧
        ∀ b : Nat, Memory.read t.mem b = if (b : Int) = a then s.acc else Memory.read s.mem b) ∧
    (-32768 ≤ s.acc ∧ s.acc ≤ 32767 → ¬ (0 ≤ a ∧ a ≤ 255) →
      exec (.str n) s = .next (faultedBy (.memBounds a) s)))

/-- Rules R150, R151: XCH swaps ACC and DR and changes nothing else, and is its own inverse. -/
def Obligations.XchSwaps : Prop :=
  SelectsPlain "XCH".toList .xch ∧
  ∀ s : State, exec .xch s = .next { s with acc := s.dr, dr := s.acc } ∧
    ∀ t, exec .xch s = .next t → exec .xch t = .next s

/-- Rule R160: a JMP to 0 to 127 writes the target minus one; any other is reported and changes nothing else. -/
def Obligations.JmpChecksItsTarget : Prop :=
  SelectsInt "JMP".toList .jmp ∧
  ∀ (n : Int) (s : State),
    (0 ≤ n ∧ n ≤ 127 → exec (.jmp n) s = .next { s with pc := n - 1 }) ∧
    (¬ (0 ≤ n ∧ n ≤ 127) →
      exec (.jmp n) s = .next { s with out := s.out ++ [.cond (.jumpOutOfRange n)] })

/-- Rule R164: with Z set JZS writes the target minus one, unchecked but for the width; with Z clear it does nothing. -/
def Obligations.JzsTestsZero : Prop :=
  SelectsInt "JZS".toList .jzs ∧
  ∀ (n : Int) (s : State),
    (s.z = false → exec (.jzs n) s = .next s) ∧
    (s.z = true → s.wordModel.fits (n - 1) = true → exec (.jzs n) s = .next { s with pc := n - 1 }) ∧
    (s.z = true → s.wordModel.fits (n - 1) = false → exec (.jzs n) s = .next (faultedBy (.width (n - 1)) s))

/-- Rule R168: HLT emits the final dump, HALTED and the exit request, and enters HaltedHLT; in the dispatching modes
the step is that and nothing more (no trace, no advance: the spec's inference in that rule), and every later step
changes nothing (that there is one is log entry 10). HaltedHLT is entered in no other way. -/
def Obligations.HltEndsTheSession : Prop :=
  SelectsPlain "HLT".toList .hlt ∧
  (∀ s : State,
    let t := { s with
      mode := .haltedHLT
      out := s.out ++ [.dump s.dump, .cond .halted, .exit .success] }
    exec .hlt s = .next t ∧ step t = .next t ∧
    (∀ line, Dispatches line s → decodeIn s.wordModel line = .ok .hlt → step s = .next t)) ∧
  ∀ s t : State, step s = .next t → t.mode = .haltedHLT → s.mode ≠ .haltedHLT →
    ∃ line, 0 ≤ s.pc ∧ s.prog[s.pc.toNat]? = some line ∧ decodeIn s.wordModel line = .ok .hlt

/-! ### Laws that join instructions -/

/-- Rule R142: a load after a store of the same name gives the stored accumulator, or the prior word where the
accumulator was out of range. -/
def Obligations.LoadAfterStore : Prop :=
  ∀ (n : SymName) (s : State) (x : Int), 0 ≤ s.lookup n → s.lookup n ≤ 255 →
    ∃ t, exec (.str n) s = .next t ∧
      exec (.lda n) { t with acc := x } = .next { t with
        acc := if -32768 ≤ s.acc ∧ s.acc ≤ 32767 then s.acc else Memory.read s.mem (s.lookup n).toNat }

/-- Rules R131, R141, R143: a store to one undeclared name is read through any other, and neither is bound by it. -/
def Obligations.UndeclaredNamesAlias : Prop :=
  ∀ (a b : SymName) (s : State), s.binding? a = none → s.binding? b = none →
    -32768 ≤ s.acc → s.acc ≤ 32767 →
    ∃ t u, exec (.str a) s = .next t ∧ exec (.lda b) { t with acc := 0 } = .next u ∧
      u.acc = s.acc ∧ Memory.read u.mem 0 = s.acc ∧ u.sym = s.sym

/-- Rule R103: a word that DEC has just handed out is 0, in every state that meets the invariant. -/
def Obligations.FreshWordIsZero : Prop :=
  ∀ (n : SymName) (s : State), s.Inv → s.wordModel.fits (s.nfa + 1) = true → s.nfa ≤ 255 →
    ∃ t, exec (.dec n) s = .next t ∧ exec (.lda n) t = .next { t with acc := 0 }

/-- Rule R101: a DEC of a bound name gives it a new address; the old word keeps its value and is reached only
through the other names bound to it. -/
def Obligations.RedeclarationMovesTheName : Prop :=
  ∀ (n : SymName) (a : Int) (s : State), s.Inv → s.binding? n = some a → s.wordModel.fits (s.nfa + 1) = true →
    ∃ t, exec (.dec n) s = .next t ∧ t.binding? n = some s.nfa ∧ t.nfa = s.nfa + 1 ∧
      (∀ b, Memory.read t.mem b = Memory.read s.mem b) ∧
      ∀ m, t.binding? m = some a ↔ m ≠ n ∧ s.binding? m = some a

/-- Rules R118, R119: a result that ADD or SUB marks with V is refused by a following STR, and only such a one is. -/
def Obligations.OverflowRefusedByStore : Prop :=
  ∀ (i : Instr) (n : SymName) (s : State), (i = .add ∨ i = .sub) →
    s.wordModel.fits (s.acc + s.dr) = true → s.wordModel.fits (s.acc - s.dr) = true →
    ∃ t, exec i s = .next t ∧
      (t.v = true ↔ exec (.str n) t = .next { t with out := t.out ++ [.cond (.storeOutOfRange t.acc)] })

/-- Rule R29: no instruction but ADD and SUB writes a flag. -/
def Obligations.OnlyArithmeticWritesFlags : Prop :=
  ∀ (i : Instr) (s t : State), exec i s = .next t → i ≠ .add → i ≠ .sub → t.z = s.z ∧ t.v = s.v

/-- Rule R20, the column 'written by': what each instruction leaves unchanged, all of memory included. -/
def Obligations.WritersOfEachPiece : Prop :=
  ∀ (i : Instr) (s t : State), exec i s = .next t →
    (t.acc ≠ s.acc → i = .add ∨ i = .sub ∨ i = .xch ∨ (∃ n, i = .lda n) ∨ ∃ n, i = .ldi n) ∧
    (t.dr ≠ s.dr → i = .xch) ∧
    (t.z ≠ s.z → i = .add ∨ i = .sub) ∧
    (t.v ≠ s.v → i = .add ∨ i = .sub) ∧
    (t.pc ≠ s.pc → (∃ n, i = .jmp n) ∨ ∃ n, i = .jzs n) ∧
    (∀ a, Memory.read t.mem a ≠ Memory.read s.mem a → ∃ n, i = .str n ∧ (a : Int) = s.lookup n) ∧
    (∀ m, t.binding? m ≠ s.binding? m → i = .dec m) ∧
    (t.nfa ≠ s.nfa → ∃ n, i = .dec n) ∧
    (t.mode ≠ s.mode → t.mode = .haltedHLT ∧ i = .hlt ∨ t.mode = .faulted) ∧
    t.prog = s.prog ∧ t.wm = s.wm ∧ t.wordModel = s.wordModel ∧ t.programIn = s.programIn ∧
    t.commandIn = s.commandIn ∧ t.confirmIn = s.confirmIn

/-- Rule R28: no instruction reads V; changing it changes no register but V, no word, no binding and no mode. The new V
is the same where the instruction writes it, and else stays as it was; the new outputs are the same but for the V that
a dump shows. -/
def Obligations.OverflowFlagIsNeverRead : Prop :=
  ∀ (i : Instr) (s t : State) (b : Bool), exec i s = .next t →
    ∃ t' new, exec i { s with v := b } = .next t' ∧ t = { t' with v := t.v, out := t.out } ∧
      (WritesV i s → t'.v = t.v) ∧ (¬ WritesV i s → t.v = s.v ∧ t'.v = b) ∧
      t.out = s.out ++ new ∧ t'.out = s.out ++ new.map (showingV b)

/-- Rule R39: LDA loads a value in range, and only LDI, ADD and SUB bring a value out of range into the registers. -/
def Obligations.OutOfRangeValuesComeFromArithmetic : Prop :=
  ∀ (i : Instr) (s t : State), s.Inv → exec i s = .next t →
    ((∃ n, i = .lda n) → t.mode ≠ .faulted → inRange t.acc = true) ∧
    (inRange s.acc = true → inRange s.dr = true →
      inRange t.dr = true ∧ (inRange t.acc = false → i = .add ∨ i = .sub ∨ ∃ n, i = .ldi n))

/-- Rules R40, R57: a name denotes word 0 or an address that DEC has handed out; no access reaches 1 to 127. -/
def Obligations.NamesDenoteZeroOrDeclared : Prop :=
  ∀ (n : SymName) (s : State), s.Inv →
    (s.binding? n = none → s.lookup n = 0) ∧
    (s.binding? n ≠ none → 128 ≤ s.lookup n ∧ s.lookup n < s.nfa)

/-- Rule R53: both access primitives, their bounds and the one word a write changes. -/
def Obligations.MemoryPrimitives : Prop :=
  ∀ (a x : Int) (s : State),
    (a < 0 ∨ 256 ≤ a → memRead a s = .error (.memBounds a) ∧ memWrite a x s = .error (.memBounds a)) ∧
    (0 ≤ a → a < 256 → memRead a s = .ok (Memory.read s.mem a.toNat) ∧
      ∃ t, memWrite a x s = .ok t ∧ t = { s with mem := t.mem } ∧
        ∀ b : Nat, Memory.read t.mem b = if (b : Int) = a then x else Memory.read s.mem b)

/-- Rule R232: a dispatch raises at most one condition of classes R and F. That it always answers a next state, on a
fault too, is log entry 8. -/
def Obligations.OneConditionPerDispatch : Prop :=
  ∀ (line : Line) (s : State), ∃ t new, dispatchLine line s = .next t ∧ t.out = s.out ++ new ∧
    new.countP Output.isReportOrFault ≤ 1

/-! ### The controller -/

/-- Rule R186: with a legal PC and a line that decodes to an instruction, the step is exec of it, then the trace and
the advance, then what the mode adds; where exec ends the session its state stands. -/
def Obligations.StepRunsDecodedInstruction : Prop :=
  ∀ (s t : State) (line : Line) (i : Instr), Dispatches line s → decodeIn s.wordModel line = .ok i → exec i s = .next t →
    (t.mode.absorbing = true → step s = .next t) ∧
    (t.mode.absorbing = false → s.wordModel.fits (t.pc + 1) = true →
      step s = .next (afterAdvance s.mode (tracedAndAdvanced line t)))

/-- Rules R79, R80, R81 (decisions D8, D9): an unknown or malformed line is reported, traced and passed over. -/
def Obligations.UndecodedLineIsReportedNoOp : Prop :=
  ∀ (s : State) (line : Line), Dispatches line s →
    s.wordModel.fits (s.pc + 1) = true →
    (decodeIn s.wordModel line = .unknown →
      step s = .next (afterAdvance s.mode
        (tracedAndAdvanced line { s with out := s.out ++ [.cond (.unknownOpcode line)] }))) ∧
    (decodeIn s.wordModel line = .malformed →
      step s = .next (afterAdvance s.mode
        (tracedAndAdvanced line { s with out := s.out ++ [.cond (.malformedOperand line)] })))

/-- Rules R75, R190: a literal that does not fit stops the core at decode, with no trace and no advance. -/
def Obligations.WideLiteralFaults : Prop :=
  ∀ (s : State) (line : Line) (n : Int), Dispatches line s →
    decodeIn s.wordModel line = .tooWide n → step s = .next (faultedBy (.width n) s)

/-- Rules R183, R189: one command is read in Idle or HaltedBounds; Step and Run enter their modes (Run with WM 0),
Quit dumps and ends the session with no exit request, any other input is rejected with nothing else changed. In every
other mode no command is read. That Step and Run are entered by a transition of their own is log entry 9. -/
def Obligations.CommandsArePerformed : Prop :=
  (∀ (s : State) (rest : List Command), Commanding s →
    (s.commandIn = .step :: rest → step s = .next { s with commandIn := rest, mode := .stepping }) ∧
    (s.commandIn = .run :: rest → step s = .next { s with commandIn := rest, mode := .running, wm := 0 }) ∧
    (s.commandIn = .quit :: rest → step s = .next { s with
      commandIn := rest, mode := .quit, out := s.out ++ [.dump s.dump, .cond .sessionQuit] }) ∧
    (s.commandIn = .other :: rest → step s = .next { s with
      commandIn := rest, out := s.out ++ [.cond (.badCommand .other)] })) ∧
  ∀ s t : State, step s = .next t → s.mode ≠ .idle → s.mode ≠ .haltedBounds → t.commandIn = s.commandIn

/-- Rule R184: a Step command outside the program reports PC_BOUNDS and changes nothing else; inside it one line is
dispatched and, if the dispatch returns, a dump is emitted and the core is Idle. The two transitions of a Step command
are the model's granularity (log entry 9). -/
def Obligations.StepCommand : Prop :=
  ∀ (s : State) (rest : List Command), Commanding s → s.commandIn = .step :: rest →
    let s1 := { s with commandIn := rest, mode := .stepping }
    (s.pc < 0 ∨ (s.prog.length : Int) ≤ s.pc →
      steps 2 s = .next { s1 with mode := .haltedBounds, out := s.out ++ [.cond (.pcBounds s.pc)] }) ∧
    (0 ≤ s.pc → s.pc < s.prog.length →
      ∃ line t, s.prog[s.pc.toNat]? = some line ∧ dispatchAndAdvance line s1 = .next t ∧
        steps 2 s = .next (if t.mode.absorbing then t
          else { t with mode := .idle, out := t.out ++ [.dump t.dump] }))

/-- Rules R185, R187 (decision D10): Run starts with WM 0; its loop tests the bounds 0 and 128, then completion, and
then dispatches and counts. -/
def Obligations.RunLoop : Prop :=
  (∀ (s : State) (rest : List Command), Commanding s → s.commandIn = .run :: rest →
    step s = .next { s with commandIn := rest, mode := .running, wm := 0 }) ∧
  ∀ s : State, s.mode = .running →
    (s.pc < 0 ∨ 128 ≤ s.pc →
      step s = .next { s with mode := .haltedBounds, out := s.out ++ [.cond (.pcBounds s.pc)] }) ∧
    (0 ≤ s.pc → s.pc < 128 → (s.prog.length : Int) ≤ s.pc →
      step s = .next { s with mode := .idle, out := s.out ++ [.cond .runCompleted] }) ∧
    (0 ≤ s.pc → s.pc < 128 → s.pc < s.prog.length →
      ∃ line t, s.prog[s.pc.toNat]? = some line ∧ dispatchAndAdvance line s = .next t ∧
        step s = .next (if t.mode.absorbing then t else afterAdvance .running t))

/-- Rule R188 (decision D11): the dispatch that makes WM 1000 is followed by a dump, the event and the pause; with an
answer the paused run goes on with WM 0 or ends in Idle, PC and all else kept; with none the core waits. -/
def Obligations.WatermarkPause : Prop :=
  (∀ (s t : State) (line : Line), s.mode = .running → s.wm = 999 → Dispatches line s →
    dispatchAndAdvance line s = .next t → t.mode.absorbing = false →
    step s = .next { t with
      wm := 1000, mode := .awaitConfirm, out := t.out ++ [.dump t.dump, .cond .watermarkPause] }) ∧
  ∀ (s : State), s.mode = .awaitConfirm →
    (s.confirmIn = [] → step s = .next s) ∧
    (∀ rest, s.confirmIn = true :: rest →
      step s = .next { s with confirmIn := rest, wm := 0, mode := .running }) ∧
    (∀ rest, s.confirmIn = false :: rest →
      step s = .next { s with confirmIn := rest, mode := .idle, out := s.out ++ [.cond .runDeclined] })

/-- Rules R181, R243: in Idle and HaltedBounds with no command supplied, and before the load with no program, the
core waits and all state survives (that a wait is a step: log entry 10). -/
def Obligations.CoreWaitsForTheHost : Prop :=
  ∀ s : State, s.mode = .idle ∨ s.mode = .haltedBounds →
    (s.programIn = .absent ∨ (s.programIn = .taken ∧ s.commandIn = [])) →
    ∀ k, steps k s = .next s

/-- Rules R191, R243, R244: HaltedHLT, Quit and Faulted are left by nothing and no state changes in them. That a core in
them takes steps at all is log entry 10. -/
def Obligations.AbsorbingModesAreForEver : Prop :=
  ∀ (s : State) (k : Nat), s.mode = .haltedHLT ∨ s.mode = .quit ∨ s.mode = .faulted →
    steps k s = .next s

/-- Rule R161: after a legal JMP and the advance, PC is the target. -/
def Obligations.JmpLandsOnTarget : Prop :=
  ∀ (s : State) (line : Line) (n : Int), s.wordModel.legal = true → Dispatches line s →
    decodeIn s.wordModel line = .ok (.jmp n) →
    0 ≤ n → n ≤ 127 →
    ∃ t, step s = .next t ∧ t.pc = n ∧ t.acc = s.acc ∧ t.dr = s.dr ∧ t.z = s.z ∧ t.v = s.v ∧
      t.mem = s.mem ∧ t.sym = s.sym

/-- Rules R165, R166: after JZS and the advance, PC is the target, in range or not, where Z is set, and the next line
where it is clear. -/
def Obligations.JzsBranchesOnZero : Prop :=
  ∀ (s : State) (line : Line) (n : Int), s.Inv → Dispatches line s →
    decodeIn s.wordModel line = .ok (.jzs n) →
    (s.z = true → s.wordModel.fits (n - 1) = true) →
    ∃ t, step s = .next t ∧ t.pc = (if s.z then n else s.pc + 1) ∧ t.z = s.z

/-- Rule R191: the transitions of MODE, complete. The rows of a Step command go through MODE Stepping (log entry 9). -/
def Obligations.ModeTransitions : Prop :=
  ∀ s t : State, step s = .next t → s.mode = t.mode ∨ (s.mode, t.mode) ∈
    ([(.idle, .stepping), (.haltedBounds, .stepping), (.idle, .running), (.haltedBounds, .running),
      (.idle, .quit), (.haltedBounds, .quit), (.stepping, .idle), (.stepping, .haltedBounds),
      (.stepping, .haltedHLT), (.stepping, .faulted), (.running, .haltedBounds), (.running, .idle),
      (.running, .awaitConfirm), (.running, .haltedHLT), (.running, .faulted),
      (.awaitConfirm, .running), (.awaitConfirm, .idle)] : List (Mode × Mode))

/-- Rule R182: a step only adds to the outputs, and reads none of them back. That every step answers a next state, on a
fault and while the core waits too, is log entries 8 and 10; that the outputs are one list is log entry 11. -/
def Obligations.StepAnswersAndReadsNoOutput : Prop :=
  ∀ (s : State) (o : List Output), ∃ t new, step s = .next t ∧ t.out = s.out ++ new ∧
    step { s with out := o } = .next { t with out := o ++ new }

/-- Rule R190: the step that enters Faulted writes nothing but MODE and the one condition (no trace, no advance), and
no later step changes anything. That no earlier write of the faulting instruction is left (a DEC whose increment does
not fit binds nothing) is the spec's inference in rule R233 and log entry 13; that a faulted core takes steps is log
entry 10. -/
def Obligations.FaultsArePrecise : Prop :=
  ∀ s t : State, s.Inv → step s = .next t → t.mode = .faulted → s.mode ≠ .faulted →
    (∃ f, t = faultedBy f s) ∧ step t = .next t

/-- Rule R225: FAULT_WIDTH is never raised under Unbounded. -/
def Obligations.NoWidthFaultUnbounded : Prop :=
  ∀ (s t : State) (v : Int), s.wordModel = .unbounded → step s = .next t →
    Output.cond (.fault (.width v)) ∈ t.out → Output.cond (.fault (.width v)) ∈ s.out

/-- Rule R196: the host adds to one input port and changes nothing else. That commands and answers wait in queues is
log entry 11; that the program waits for the load, and a second program is not received, is log entry 3. -/
def Obligations.HostOnlySuppliesInputs : Prop :=
  ∀ s : State,
    (∀ lines, s.programIn = .absent → s.host (.program lines) = { s with programIn := .supplied lines }) ∧
    (∀ lines, s.programIn ≠ .absent → s.host (.program lines) = s) ∧
    (∀ c, s.host (.command c) = { s with commandIn := s.commandIn ++ [c] }) ∧
    (∀ b, s.host (.answer b) = { s with confirmIn := s.confirmIn ++ [b] })

/-- Rule R182 (b): a dump shows each bound name once, with its address, and its word where the address is in data
memory. That a dump lists the names in a fixed order is the model's form, not a claim (log entry 7). -/
def Obligations.DumpShowsEachBinding : Prop :=
  ∀ s : State, SymTable.wf s.sym →
    (s.dump.acc = s.acc ∧ s.dump.dr = s.dr ∧ s.dump.pc = s.pc ∧ s.dump.z = s.z ∧ s.dump.v = s.v) ∧
    (s.dump.names.map DumpEntry.name).Nodup ∧
    ∀ e : DumpEntry, e ∈ s.dump.names ↔ s.binding? e.name = some e.address ∧
      e.word = if 0 ≤ e.address ∧ e.address < 256 then some (Memory.read s.mem e.address.toNat) else none

/-- Rules R220, R221: the code of each condition, and the codes of each class. -/
def Obligations.ConditionCodes : Prop :=
  (∀ n, (Condition.progTruncated n).code = 1) ∧ (∀ l, (Condition.unknownOpcode l).code = 2) ∧
  (∀ l, (Condition.malformedOperand l).code = 3) ∧ (∀ x, (Condition.storeOutOfRange x).code = 4) ∧
  (∀ n, (Condition.jumpOutOfRange n).code = 5) ∧ (∀ p, (Condition.pcBounds p).code = 6) ∧
  (∀ c, (Condition.badCommand c).code = 7) ∧ (∀ a, (Condition.fault (.memBounds a)).code = 16) ∧
  (∀ x, (Condition.fault (.width x)).code = 17) ∧ Condition.watermarkPause.code = 32 ∧
  Condition.runCompleted.code = 33 ∧ Condition.runDeclined.code = 34 ∧ Condition.halted.code = 35 ∧
  Condition.sessionQuit.code = 36 ∧
  ∀ c : Condition,
    (c.cls = .reported ↔ 1 ≤ c.code ∧ c.code ≤ 7) ∧ (c.cls = .fault ↔ c.code = 16 ∨ c.code = 17) ∧
      (c.cls = .event ↔ 32 ≤ c.code ∧ c.code ≤ 36)

/-! ### Invariants -/

/-- Rules R39, R40, R57, R103, R33, R36, R15: every step keeps the invariant, in every state that meets it. -/
def Obligations.StepKeepsInvariant : Prop :=
  ∀ s t : State, s.Inv → step s = .next t → t.Inv

/-- Rule R40: NFA is DATA_BASE plus the number of DEC instructions executed so far, counted by their trace records. -/
def Obligations.NfaCountsDeclarations : Prop :=
  ∀ s t : State, s.nfa = 128 + (s.declarations : Int) → step s = .next t →
    t.nfa = 128 + (t.declarations : Int)

/-- Rules R33, R63: once loaded the program never changes, over any number of steps, whatever the host supplies. -/
def Obligations.ProgramIsReadOnly : Prop :=
  ∀ (k : Nat) (s t : State), s.programIn = .taken → steps k s = .next t →
    t.prog = s.prog ∧ t.programIn = .taken ∧ ∀ a, (t.host a).prog = s.prog

/-- Rule R195: a run leaves MODE Running, for a pause or for good, within as many dispatches as WM has left to
WATERMARK. -/
def Obligations.RunPausesWithinWatermark : Prop :=
  ∀ s : State, s.Inv → s.mode = .running →
    ∃ k t, k ≤ 1000 - s.wm ∧ steps k s = .next t ∧ t.mode ≠ .running
end

