-- ==== Sys2Proof/Laws/Table.lean ====
section
/-!
SUPPORT. Finite maps in canonical form: what is found after an insertion or a removal, and that both keep the
canonical form; the two orders of keys.
-/
namespace Sys2Proof

variable {κ ν : Type} [DecidableEq κ]

@[simp] theorem Table.find?_nil (k : κ) : Table.find? k ([] : List (κ × ν)) = none := rfl

theorem Table.find?_insert (lt : κ → κ → Bool) (k j : κ) (x : ν) (m : List (κ × ν)) :
    Table.find? j (Table.insert lt k x m) = if k = j then some x else Table.find? j m := by
  induction m with
  | nil => simp [Table.insert, Table.find?]
  | cons e rest ih =>
    unfold Table.insert
    split
    · rename_i hk
      by_cases hj : k = j <;> simp_all [Table.find?]
    · rename_i hk
      split
      · simp [Table.find?]
      · by_cases hj : e.1 = j
        · have : ¬ k = j := fun h => hk (hj.trans h.symm)
          simp [Table.find?, hj, this]
        · simp [Table.find?, hj, ih]

theorem Table.erase_cons (k : κ) (e : κ × ν) (rest : List (κ × ν)) :
    Table.erase k (e :: rest) = if e.1 = k then Table.erase k rest else e :: Table.erase k rest := by
  simp only [Table.erase, List.filter_cons]
  split <;> split <;> simp_all

theorem Table.find?_erase (k j : κ) (m : List (κ × ν)) :
    Table.find? j (Table.erase k m) = if k = j then none else Table.find? j m := by
  induction m with
  | nil => simp [Table.erase]
  | cons e rest ih =>
    rw [Table.erase_cons]
    split
    · rename_i hk
      by_cases hj : k = j <;> simp_all [Table.find?]
    · rename_i hk
      by_cases hj : e.1 = j
      · have : ¬ k = j := fun h => hk (hj.trans h.symm)
        simp [Table.find?, hj, this]
      · simp [Table.find?, hj, ih]

theorem Table.mem_of_find? {k : κ} {x : ν} {m : List (κ × ν)} (h : Table.find? k m = some x) : (k, x) ∈ m := by
  induction m with
  | nil => simp at h
  | cons e rest ih =>
    by_cases hk : e.1 = k
    · simp only [Table.find?, hk, if_true, Option.some.injEq] at h
      subst hk h; simp
    · simp only [Table.find?, hk, if_false] at h
      exact List.mem_cons_of_mem _ (ih h)

theorem Table.mem_insert {lt : κ → κ → Bool} {k : κ} {x : ν} {m : List (κ × ν)} {e : κ × ν}
    (h : e ∈ Table.insert lt k x m) : e = (k, x) ∨ e ∈ m := by
  induction m with
  | nil => simpa [Table.insert] using h
  | cons a rest ih =>
    unfold Table.insert at h
    split at h
    · simp only [List.mem_cons] at h ⊢; tauto
    · split at h
      · simpa using h
      · simp only [List.mem_cons] at h ⊢
        rcases h with h | h
        · exact .inr (.inl h)
        · exact (ih h).imp_right .inr

theorem Table.mem_erase {k : κ} {m : List (κ × ν)} {e : κ × ν} (h : e ∈ Table.erase k m) : e ∈ m :=
  (List.mem_filter.mp h).1

theorem Table.erase_sorted {lt : κ → κ → Bool} (k : κ) {m : List (κ × ν)} (h : Table.Sorted lt m) :
    Table.Sorted lt (Table.erase k m) := List.Pairwise.filter _ h

/-- The canonical form is kept by an insertion in an order that is transitive and compares any two different keys. -/
theorem Table.insert_sorted {lt : κ → κ → Bool} (trans : ∀ a b c, lt a b = true → lt b c = true → lt a c = true)
    (total : ∀ a b, a ≠ b → lt a b = false → lt b a = true) (k : κ) (x : ν) {m : List (κ × ν)}
    (h : Table.Sorted lt m) : Table.Sorted lt (Table.insert lt k x m) := by
  induction m with
  | nil => simp [Table.insert]
  | cons e rest ih =>
    have hh := List.pairwise_cons.mp h
    unfold Table.insert
    split
    · rename_i hk
      exact List.pairwise_cons.mpr ⟨fun b hb => by simpa [hk] using hh.1 b hb, hh.2⟩
    · rename_i hk
      split
      · rename_i hl
        refine List.pairwise_cons.mpr ⟨fun b hb => ?_, h⟩
        rcases List.mem_cons.mp hb with rfl | hb
        · exact hl
        · exact trans _ _ _ hl (hh.1 b hb)
      · rename_i hl
        refine List.pairwise_cons.mpr ⟨fun b hb => ?_, ih hh.2⟩
        rcases Table.mem_insert hb with rfl | hb
        · exact total _ _ (Ne.symm hk) (by simpa using hl)
        · exact hh.1 b hb

/-- In canonical form, the entries are the bindings. -/
theorem Table.find?_of_mem {lt : κ → κ → Bool} (irrefl : ∀ a, lt a a = false) {m : List (κ × ν)}
    (hm : Table.Sorted lt m) {e : κ × ν} (h : e ∈ m) : Table.find? e.1 m = some e.2 := by
  induction m with
  | nil => simp at h
  | cons a rest ih =>
    have hh := List.pairwise_cons.mp hm
    rcases List.mem_cons.mp h with rfl | h
    · simp [Table.find?]
    · have hne : ¬ a.1 = e.1 := fun heq => by
        have := hh.1 e h
        rw [heq, irrefl] at this; cases this
      simp [Table.find?, hne, ih hh.2 h]

theorem natLt_trans (a b c : Nat) (h : natLt a b = true) (h' : natLt b c = true) : natLt a c = true := by
  simp only [natLt, decide_eq_true_eq] at *; omega

theorem natLt_total (a b : Nat) (h : a ≠ b) (h' : natLt a b = false) : natLt b a = true := by
  simp only [natLt, decide_eq_true_eq, decide_eq_false_iff_not] at *; omega

theorem nameLt_irrefl (a : List Char) : nameLt a a = false := by
  induction a with
  | nil => rfl
  | cons c cs ih => simp [nameLt, ih]

theorem nameLt_trans (a b c : List Char) (h : nameLt a b = true) (h' : nameLt b c = true) : nameLt a c = true := by
  induction a generalizing b c with
  | nil => cases b <;> cases c <;> simp_all [nameLt]
  | cons x xs ih =>
    cases b with
    | nil => simp [nameLt] at h
    | cons y ys =>
      cases c with
      | nil => simp [nameLt] at h'
      | cons w ws =>
        by_cases h1 : x.toNat < y.toNat
        · by_cases h2 : y.toNat < w.toNat
          · have h3 : x.toNat < w.toNat := by omega
            simp only [nameLt, h3, if_true]
          · by_cases h4 : y = w
            · subst h4; simp [nameLt, h1]
            · simp [nameLt, h2, h4] at h'
        · by_cases h2 : x = y
          · subst h2
            by_cases h3 : x.toNat < w.toNat
            · simp [nameLt, h3]
            · by_cases h4 : x = w
              · subst h4
                simp only [nameLt, lt_irrefl, if_false, if_true] at h h' ⊢
                exact ih ys ws h h'
              · simp [nameLt, h3, h4] at h'
          · simp [nameLt, h1, h2] at h

theorem nameLt_total (a b : List Char) (h : a ≠ b) (h' : nameLt a b = false) : nameLt b a = true := by
  induction a generalizing b with
  | nil => cases b <;> simp_all [nameLt]
  | cons x xs ih =>
    cases b with
    | nil => simp [nameLt]
    | cons y ys =>
      by_cases h1 : x.toNat < y.toNat
      · simp [nameLt, h1] at h'
      · by_cases h2 : x = y
        · subst h2
          simp only [nameLt, lt_irrefl, if_false, if_true] at h' ⊢
          exact ih ys (fun e => h (by rw [e])) h'
        · have h3 : x.toNat ≠ y.toNat := fun e => h2 (Char.toNat_inj.mp e)
          have h4 : y.toNat < x.toNat := by omega
          simp [nameLt, h4]

end Sys2Proof
end

