-- ==== Sys2Proof/Laws/Memory.lean ====
section
/-!
SUPPORT. The data memory and the symbol table: reads after writes, the canonical forms, and what the access
primitives can answer.
-/
namespace Sys2Proof.Machine

theorem Memory.read_write (m : List (Nat × Int)) (a b : Nat) (x : Int) :
    Memory.read (Memory.write m a x) b = if a = b then x else Memory.read m b := by
  unfold Memory.read Memory.write
  split
  · rename_i hx
    rw [Table.find?_erase]; split <;> simp_all
  · rw [Table.find?_insert]; split <;> simp

@[simp] theorem Memory.read_nil (a : Nat) : Memory.read [] a = 0 := rfl

theorem Memory.mem_write {m : List (Nat × Int)} {a : Nat} {x : Int} {e : Nat × Int} (h : e ∈ Memory.write m a x) :
    e ∈ m ∨ (e = (a, x) ∧ x ≠ 0) := by
  unfold Memory.write at h
  split at h
  · exact .inl (Table.mem_erase h)
  · rename_i hx
    exact (Table.mem_insert h).symm.imp_right (fun h => ⟨h, hx⟩)

theorem Memory.write_sorted {m : List (Nat × Int)} (h : Table.Sorted natLt m) (a : Nat) (x : Int) :
    Table.Sorted natLt (Memory.write m a x) := by
  unfold Memory.write
  split
  · exact Table.erase_sorted a h
  · exact Table.insert_sorted natLt_trans natLt_total a x h

/-- A write inside the memory keeps the canonical form. -/
theorem Memory.write_wf {m : List (Nat × Int)} (h : Memory.wf m) {a : Nat} (ha : a < Config.memSize) (x : Int) :
    Memory.wf (Memory.write m a x) :=
  ⟨Memory.write_sorted h.1 a x, fun e he => by
    rcases Memory.mem_write he with he | ⟨rfl, hx⟩
    · exact h.2 e he
    · exact ⟨ha, hx⟩⟩

theorem Memory.reset_wf : Memory.wf State.reset.mem := by decide

/-- A word that is not 0 is listed. -/
theorem Memory.mem_of_read {m : List (Nat × Int)} {a : Nat} (h : Memory.read m a ≠ 0) : (a, Memory.read m a) ∈ m := by
  unfold Memory.read at *
  cases hf : Table.find? a m with
  | none => simp [hf] at h
  | some x => simpa using Table.mem_of_find? hf

theorem addressInBounds_iff (a : Int) : addressInBounds a = true ↔ 0 ≤ a ∧ a < 256 := by
  simp only [addressInBounds, Bool.and_eq_true, decide_eq_true_eq]; exact Iff.rfl

/-- All that MemRead can answer. -/
theorem memRead_eq (a : Int) (s : State) :
    memRead a s = if 0 ≤ a ∧ a < 256 then .ok (Memory.read s.mem a.toNat) else .error (.memBounds a) := by
  simp only [memRead, addressInBounds_iff]

/-- All that MemWrite can answer. -/
theorem memWrite_eq (a x : Int) (s : State) :
    memWrite a x s =
      if 0 ≤ a ∧ a < 256 then .ok { s with mem := Memory.write s.mem a.toNat x } else .error (.memBounds a) := by
  simp only [memWrite, addressInBounds_iff]

theorem State.binding?_bind (n m : SymName) (a : Int) (s : State) :
    (s.bind n a).binding? m = if n = m then some a else s.binding? m :=
  Table.find?_insert nameLt n m a s.sym

/-- A binding keeps the canonical form of the symbol table. -/
theorem SymTable.bind_wf {s : State} (h : SymTable.wf s.sym) (n : SymName) (a : Int) : SymTable.wf (s.bind n a).sym :=
  Table.insert_sorted nameLt_trans nameLt_total n a h

theorem State.mem_bind {s : State} {n : SymName} {a : Int} {b : SymName × Int} (h : b ∈ (s.bind n a).sym) :
    b = (n, a) ∨ b ∈ s.sym := Table.mem_insert h

/-- In canonical form the entries of the symbol table are its bindings. -/
theorem State.mem_sym_iff {s : State} (h : SymTable.wf s.sym) (n : SymName) (a : Int) :
    (n, a) ∈ s.sym ↔ s.binding? n = some a :=
  ⟨fun hm => Table.find?_of_mem nameLt_irrefl h hm, Table.mem_of_find?⟩

end Sys2Proof.Machine
end

