-- ==== Sys2Proof/Laws/State.lean ====
section
/-!
SUPPORT. What each named update of State does to each field: one lemma per field per update, so that no later proof
unfolds a record update. The composite operations are rewritten to the named updates.
-/
namespace Sys2Proof.Machine

@[simp] theorem State.raise_eq_emit (c : Condition) (s : State) : s.raise c = s.emit (.cond c) := rfl
@[simp] theorem State.takeFault_eq (f : Fault) (s : State) :
    s.takeFault f = (s.emit (.cond (.fault f))).enter .faulted := rfl
@[simp] theorem State.emitTrace_eq_emit (line : Line) (s : State) :
    s.emitTrace line = s.emit (.trace (s.traceRecord line)) := rfl
@[simp] theorem State.emitDump_eq_emit (s : State) : s.emitDump = s.emit (.dump s.dump) := rfl

/-! ### Emitting -/

@[simp] theorem State.emit_acc (o : Output) (s : State) : (s.emit o).acc = s.acc := rfl
@[simp] theorem State.emit_dr (o : Output) (s : State) : (s.emit o).dr = s.dr := rfl
@[simp] theorem State.emit_pc (o : Output) (s : State) : (s.emit o).pc = s.pc := rfl
@[simp] theorem State.emit_z (o : Output) (s : State) : (s.emit o).z = s.z := rfl
@[simp] theorem State.emit_v (o : Output) (s : State) : (s.emit o).v = s.v := rfl
@[simp] theorem State.emit_mem (o : Output) (s : State) : (s.emit o).mem = s.mem := rfl
@[simp] theorem State.emit_sym (o : Output) (s : State) : (s.emit o).sym = s.sym := rfl
@[simp] theorem State.emit_nfa (o : Output) (s : State) : (s.emit o).nfa = s.nfa := rfl
@[simp] theorem State.emit_prog (o : Output) (s : State) : (s.emit o).prog = s.prog := rfl
@[simp] theorem State.emit_mode (o : Output) (s : State) : (s.emit o).mode = s.mode := rfl
@[simp] theorem State.emit_wm (o : Output) (s : State) : (s.emit o).wm = s.wm := rfl
@[simp] theorem State.emit_wordModel (o : Output) (s : State) : (s.emit o).wordModel = s.wordModel := rfl
@[simp] theorem State.emit_programIn (o : Output) (s : State) : (s.emit o).programIn = s.programIn := rfl
@[simp] theorem State.emit_commandIn (o : Output) (s : State) : (s.emit o).commandIn = s.commandIn := rfl
@[simp] theorem State.emit_confirmIn (o : Output) (s : State) : (s.emit o).confirmIn = s.confirmIn := rfl
@[simp] theorem State.emit_out (o : Output) (s : State) : (s.emit o).out = s.out ++ [o] := rfl

/-! ### Entering a mode -/

@[simp] theorem State.enter_acc (m : Mode) (s : State) : (s.enter m).acc = s.acc := rfl
@[simp] theorem State.enter_dr (m : Mode) (s : State) : (s.enter m).dr = s.dr := rfl
@[simp] theorem State.enter_pc (m : Mode) (s : State) : (s.enter m).pc = s.pc := rfl
@[simp] theorem State.enter_z (m : Mode) (s : State) : (s.enter m).z = s.z := rfl
@[simp] theorem State.enter_v (m : Mode) (s : State) : (s.enter m).v = s.v := rfl
@[simp] theorem State.enter_mem (m : Mode) (s : State) : (s.enter m).mem = s.mem := rfl
@[simp] theorem State.enter_sym (m : Mode) (s : State) : (s.enter m).sym = s.sym := rfl
@[simp] theorem State.enter_nfa (m : Mode) (s : State) : (s.enter m).nfa = s.nfa := rfl
@[simp] theorem State.enter_prog (m : Mode) (s : State) : (s.enter m).prog = s.prog := rfl
@[simp] theorem State.enter_mode (m : Mode) (s : State) : (s.enter m).mode = m := rfl
@[simp] theorem State.enter_wm (m : Mode) (s : State) : (s.enter m).wm = s.wm := rfl
@[simp] theorem State.enter_wordModel (m : Mode) (s : State) : (s.enter m).wordModel = s.wordModel := rfl
@[simp] theorem State.enter_programIn (m : Mode) (s : State) : (s.enter m).programIn = s.programIn := rfl
@[simp] theorem State.enter_commandIn (m : Mode) (s : State) : (s.enter m).commandIn = s.commandIn := rfl
@[simp] theorem State.enter_confirmIn (m : Mode) (s : State) : (s.enter m).confirmIn = s.confirmIn := rfl
@[simp] theorem State.enter_out (m : Mode) (s : State) : (s.enter m).out = s.out := rfl

/-! ### Writing PC -/

@[simp] theorem State.setPc_acc (p : Int) (s : State) : (s.setPc p).acc = s.acc := rfl
@[simp] theorem State.setPc_dr (p : Int) (s : State) : (s.setPc p).dr = s.dr := rfl
@[simp] theorem State.setPc_pc (p : Int) (s : State) : (s.setPc p).pc = p := rfl
@[simp] theorem State.setPc_z (p : Int) (s : State) : (s.setPc p).z = s.z := rfl
@[simp] theorem State.setPc_v (p : Int) (s : State) : (s.setPc p).v = s.v := rfl
@[simp] theorem State.setPc_mem (p : Int) (s : State) : (s.setPc p).mem = s.mem := rfl
@[simp] theorem State.setPc_sym (p : Int) (s : State) : (s.setPc p).sym = s.sym := rfl
@[simp] theorem State.setPc_nfa (p : Int) (s : State) : (s.setPc p).nfa = s.nfa := rfl
@[simp] theorem State.setPc_prog (p : Int) (s : State) : (s.setPc p).prog = s.prog := rfl
@[simp] theorem State.setPc_mode (p : Int) (s : State) : (s.setPc p).mode = s.mode := rfl
@[simp] theorem State.setPc_wm (p : Int) (s : State) : (s.setPc p).wm = s.wm := rfl
@[simp] theorem State.setPc_wordModel (p : Int) (s : State) : (s.setPc p).wordModel = s.wordModel := rfl
@[simp] theorem State.setPc_programIn (p : Int) (s : State) : (s.setPc p).programIn = s.programIn := rfl
@[simp] theorem State.setPc_commandIn (p : Int) (s : State) : (s.setPc p).commandIn = s.commandIn := rfl
@[simp] theorem State.setPc_confirmIn (p : Int) (s : State) : (s.setPc p).confirmIn = s.confirmIn := rfl
@[simp] theorem State.setPc_out (p : Int) (s : State) : (s.setPc p).out = s.out := rfl

/-! ### Binding a name -/

@[simp] theorem State.bind_acc (n : SymName) (a : Int) (s : State) : (s.bind n a).acc = s.acc := rfl
@[simp] theorem State.bind_dr (n : SymName) (a : Int) (s : State) : (s.bind n a).dr = s.dr := rfl
@[simp] theorem State.bind_pc (n : SymName) (a : Int) (s : State) : (s.bind n a).pc = s.pc := rfl
@[simp] theorem State.bind_z (n : SymName) (a : Int) (s : State) : (s.bind n a).z = s.z := rfl
@[simp] theorem State.bind_v (n : SymName) (a : Int) (s : State) : (s.bind n a).v = s.v := rfl
@[simp] theorem State.bind_mem (n : SymName) (a : Int) (s : State) : (s.bind n a).mem = s.mem := rfl
@[simp] theorem State.bind_sym (n : SymName) (a : Int) (s : State) :
    (s.bind n a).sym = Table.insert nameLt n a s.sym := rfl
@[simp] theorem State.bind_nfa (n : SymName) (a : Int) (s : State) : (s.bind n a).nfa = s.nfa := rfl
@[simp] theorem State.bind_prog (n : SymName) (a : Int) (s : State) : (s.bind n a).prog = s.prog := rfl
@[simp] theorem State.bind_mode (n : SymName) (a : Int) (s : State) : (s.bind n a).mode = s.mode := rfl
@[simp] theorem State.bind_wm (n : SymName) (a : Int) (s : State) : (s.bind n a).wm = s.wm := rfl
@[simp] theorem State.bind_wordModel (n : SymName) (a : Int) (s : State) : (s.bind n a).wordModel = s.wordModel := rfl
@[simp] theorem State.bind_programIn (n : SymName) (a : Int) (s : State) : (s.bind n a).programIn = s.programIn := rfl
@[simp] theorem State.bind_commandIn (n : SymName) (a : Int) (s : State) : (s.bind n a).commandIn = s.commandIn := rfl
@[simp] theorem State.bind_confirmIn (n : SymName) (a : Int) (s : State) : (s.bind n a).confirmIn = s.confirmIn := rfl
@[simp] theorem State.bind_out (n : SymName) (a : Int) (s : State) : (s.bind n a).out = s.out := rfl

/-! ### Setting Z -/

@[simp] theorem State.updateZeroFlag_acc (r : Int) (s : State) : (s.updateZeroFlag r).acc = s.acc := rfl
@[simp] theorem State.updateZeroFlag_dr (r : Int) (s : State) : (s.updateZeroFlag r).dr = s.dr := rfl
@[simp] theorem State.updateZeroFlag_pc (r : Int) (s : State) : (s.updateZeroFlag r).pc = s.pc := rfl
@[simp] theorem State.updateZeroFlag_z (r : Int) (s : State) : (s.updateZeroFlag r).z = decide (r = 0) := rfl
@[simp] theorem State.updateZeroFlag_v (r : Int) (s : State) : (s.updateZeroFlag r).v = s.v := rfl
@[simp] theorem State.updateZeroFlag_mem (r : Int) (s : State) : (s.updateZeroFlag r).mem = s.mem := rfl
@[simp] theorem State.updateZeroFlag_sym (r : Int) (s : State) : (s.updateZeroFlag r).sym = s.sym := rfl
@[simp] theorem State.updateZeroFlag_nfa (r : Int) (s : State) : (s.updateZeroFlag r).nfa = s.nfa := rfl
@[simp] theorem State.updateZeroFlag_prog (r : Int) (s : State) : (s.updateZeroFlag r).prog = s.prog := rfl
@[simp] theorem State.updateZeroFlag_mode (r : Int) (s : State) : (s.updateZeroFlag r).mode = s.mode := rfl
@[simp] theorem State.updateZeroFlag_wm (r : Int) (s : State) : (s.updateZeroFlag r).wm = s.wm := rfl
@[simp] theorem State.updateZeroFlag_wordModel (r : Int) (s : State) :
    (s.updateZeroFlag r).wordModel = s.wordModel := rfl
@[simp] theorem State.updateZeroFlag_programIn (r : Int) (s : State) :
    (s.updateZeroFlag r).programIn = s.programIn := rfl
@[simp] theorem State.updateZeroFlag_commandIn (r : Int) (s : State) :
    (s.updateZeroFlag r).commandIn = s.commandIn := rfl
@[simp] theorem State.updateZeroFlag_confirmIn (r : Int) (s : State) :
    (s.updateZeroFlag r).confirmIn = s.confirmIn := rfl
@[simp] theorem State.updateZeroFlag_out (r : Int) (s : State) : (s.updateZeroFlag r).out = s.out := rfl

/-! ### Setting V -/

@[simp] theorem State.updateOverflowFlag_acc (r : Int) (s : State) : (s.updateOverflowFlag r).acc = s.acc := rfl
@[simp] theorem State.updateOverflowFlag_dr (r : Int) (s : State) : (s.updateOverflowFlag r).dr = s.dr := rfl
@[simp] theorem State.updateOverflowFlag_pc (r : Int) (s : State) : (s.updateOverflowFlag r).pc = s.pc := rfl
@[simp] theorem State.updateOverflowFlag_z (r : Int) (s : State) : (s.updateOverflowFlag r).z = s.z := rfl
@[simp] theorem State.updateOverflowFlag_v (r : Int) (s : State) : (s.updateOverflowFlag r).v = !inRange r := rfl
@[simp] theorem State.updateOverflowFlag_mem (r : Int) (s : State) : (s.updateOverflowFlag r).mem = s.mem := rfl
@[simp] theorem State.updateOverflowFlag_sym (r : Int) (s : State) : (s.updateOverflowFlag r).sym = s.sym := rfl
@[simp] theorem State.updateOverflowFlag_nfa (r : Int) (s : State) : (s.updateOverflowFlag r).nfa = s.nfa := rfl
@[simp] theorem State.updateOverflowFlag_prog (r : Int) (s : State) : (s.updateOverflowFlag r).prog = s.prog := rfl
@[simp] theorem State.updateOverflowFlag_mode (r : Int) (s : State) : (s.updateOverflowFlag r).mode = s.mode := rfl
@[simp] theorem State.updateOverflowFlag_wm (r : Int) (s : State) : (s.updateOverflowFlag r).wm = s.wm := rfl
@[simp] theorem State.updateOverflowFlag_wordModel (r : Int) (s : State) :
    (s.updateOverflowFlag r).wordModel = s.wordModel := rfl
@[simp] theorem State.updateOverflowFlag_programIn (r : Int) (s : State) :
    (s.updateOverflowFlag r).programIn = s.programIn := rfl
@[simp] theorem State.updateOverflowFlag_commandIn (r : Int) (s : State) :
    (s.updateOverflowFlag r).commandIn = s.commandIn := rfl
@[simp] theorem State.updateOverflowFlag_confirmIn (r : Int) (s : State) :
    (s.updateOverflowFlag r).confirmIn = s.confirmIn := rfl
@[simp] theorem State.updateOverflowFlag_out (r : Int) (s : State) : (s.updateOverflowFlag r).out = s.out := rfl

end Sys2Proof.Machine
end

