-- ==== Sys2Proof/Laws/Ops.lean ====
section
/-!
SUPPORT. The range tests as propositions, and what the width test and `onReturn` can answer.
-/
namespace Sys2Proof

theorem inRange_iff (v : Int) : inRange v = true ↔ -32768 ≤ v ∧ v ≤ 32767 := by
  simp only [inRange, Bool.and_eq_true, decide_eq_true_eq]; exact Iff.rfl

theorem inRange_eq_decide (v : Int) : inRange v = decide (-32768 ≤ v ∧ v ≤ 32767) := by
  rw [Bool.eq_iff_iff, inRange_iff, decide_eq_true_eq]

@[simp] theorem WordModel.fits_unbounded (v : Int) : WordModel.unbounded.fits v = true := rfl

theorem WordModel.fits_fixed_iff (W : Nat) (v : Int) :
    (WordModel.fixed W).fits v = true ↔ -signBound W ≤ v ∧ v ≤ signBound W - 1 := by
  simp only [WordModel.fits, Bool.and_eq_true, decide_eq_true_eq]

theorem signBound_ge (W : Nat) (h : 17 ≤ W) : 65536 ≤ signBound W := by
  have : (2 : Nat) ^ 16 ≤ 2 ^ (W - 1) := Nat.pow_le_pow_right (by decide) (by omega)
  simp only [signBound]; omega

/-- In a legal word model every value of the 17-bit range fits (rule R10). -/
theorem WordModel.fits_of_legal {wm : WordModel} (h : wm.legal = true) {v : Int} (h1 : -65536 ≤ v) (h2 : v ≤ 65535) :
    wm.fits v = true := by
  cases wm with
  | unbounded => rfl
  | fixed W =>
    have := signBound_ge W (of_decide_eq_true h)
    rw [WordModel.fits_fixed_iff]; omega

/-- What fits is an interval: a value between two that fit, fits. -/
theorem WordModel.fits_between {wm : WordModel} {a b v : Int} (ha : wm.fits a = true) (hb : wm.fits b = true)
    (h1 : a ≤ v) (h2 : v ≤ b) : wm.fits v = true := by
  cases wm with
  | unbounded => rfl
  | fixed W => rw [WordModel.fits_fixed_iff] at *; omega

namespace Machine

theorem jumpInRange_iff (n : Int) : jumpInRange n = true ↔ 0 ≤ n ∧ n ≤ 127 := by
  simp only [jumpInRange, Bool.and_eq_true, decide_eq_true_eq]; exact Iff.rfl

theorem State.outOfRunRange_iff (s : State) : s.outOfRunRange = true ↔ s.pc < 0 ∨ 128 ≤ s.pc := by
  simp only [State.outOfRunRange, Bool.or_eq_true, decide_eq_true_eq]; exact Iff.rfl

theorem State.fetch?_eq_some_iff (s : State) (line : Line) :
    s.fetch? = some line ↔ 0 ≤ s.pc ∧ s.prog[s.pc.toNat]? = some line := by
  unfold State.fetch?; split <;> simp_all

theorem State.fetch?_eq_none_iff (s : State) : s.fetch? = none ↔ s.pc < 0 ∨ (s.prog.length : Int) ≤ s.pc := by
  unfold State.fetch?
  split
  · rw [List.getElem?_eq_none_iff]; omega
  · simp; omega

theorem State.checkW_of_fits {v : Int} {s : State} (h : s.wordModel.fits v = true) (k : State → State) :
    s.checkW v k = k s := by simp only [State.checkW, h, if_true]

theorem State.checkW_of_not_fits {v : Int} {s : State} (h : s.wordModel.fits v = false) (k : State → State) :
    s.checkW v k = s.takeFault (.width v) := by
  simp only [State.checkW, h, Bool.false_eq_true, if_false]

/-- All that a width test can do. -/
theorem State.checkW_cases (v : Int) (k : State → State) (s : State) :
    (s.wordModel.fits v = true ∧ s.checkW v k = k s) ∨
      (s.wordModel.fits v = false ∧ s.checkW v k = s.takeFault (.width v)) := by
  cases h : s.wordModel.fits v with
  | true => exact .inl ⟨rfl, State.checkW_of_fits h k⟩
  | false => exact .inr ⟨rfl, State.checkW_of_not_fits h k⟩

@[simp] theorem onReturn_next (t : State) (k : State → State) :
    onReturn (.next t) k = .next (if t.mode.absorbing then t else k t) := rfl

/-- All that `onReturn` can answer as a next state. -/
theorem onReturn_eq_next {r : Result} {k : State → State} {u : State} (h : onReturn r k = .next u) :
    ∃ t, r = .next t ∧ ((t.mode.absorbing = true ∧ u = t) ∨ (t.mode.absorbing = false ∧ u = k t)) := by
  cases r with
  | next t =>
    refine ⟨t, rfl, ?_⟩
    simp only [onReturn_next, Host.Outcome.next.injEq] at h
    cases ha : t.mode.absorbing <;> simp_all
  | fault f => cases h
  | refused x => cases h

end Machine

end Sys2Proof
end

