-- ==== Sys2Proof/Laws/Controller.lean ====
section
/-!
SUPPORT. One lemma per mode for the step, the answers of exec and of a dispatch, and all that a step of a dispatching
mode can do.
-/
namespace Sys2Proof.Machine

theorem step_idle {s : State} (h : s.mode = .idle) : step s = .next (await s) := by simp only [step, transition, h]
theorem step_haltedBounds {s : State} (h : s.mode = .haltedBounds) : step s = .next (await s) := by
  simp only [step, transition, h]
theorem step_stepping {s : State} (h : s.mode = .stepping) : step s = stepOnce s := by
  simp only [step, transition, h]
theorem step_running {s : State} (h : s.mode = .running) : step s = runOnce s := by simp only [step, transition, h]
theorem step_awaitConfirm {s : State} (h : s.mode = .awaitConfirm) : step s = .next (confirm s) := by
  simp only [step, transition, h]
theorem step_absorbing {s : State} (h : s.mode.absorbing = true) : step s = .next s := by
  cases hm : s.mode <;> simp_all [step, transition, Mode.absorbing]

/-- Each meaning is one of these: a next state in every case. -/
theorem exec_answers (i : Instr) (s : State) : ∃ t, exec i s = .next t := by
  cases i <;> simp only [exec]
  case lda n => unfold execLda; split <;> exact ⟨_, rfl⟩
  case str n => unfold execStr; split <;> (try split) <;> exact ⟨_, rfl⟩
  case jmp n => unfold execJmp; split <;> exact ⟨_, rfl⟩
  case jzs n => unfold execJzs; split <;> exact ⟨_, rfl⟩
  all_goals exact ⟨_, rfl⟩

theorem dispatchLine_answers (line : Line) (s : State) : ∃ t, dispatchLine line s = .next t := by
  unfold dispatchLine; split
  · exact exec_answers _ s
  all_goals exact ⟨_, rfl⟩

/-- All that DispatchAndAdvance can do: the dispatch ends the session, or it returns and PC advances, or it returns
and the advance does not fit (rules R186, R190). -/
theorem dispatchAndAdvance_cases (line : Line) (s : State) :
    ∃ t, dispatchLine line s = .next t ∧
      ((t.mode.absorbing = true ∧ dispatchAndAdvance line s = .next t) ∨
       (t.mode.absorbing = false ∧ dispatchAndAdvance line s = .next (t.emitTrace line).advance)) := by
  obtain ⟨t, ht⟩ := dispatchLine_answers line s
  refine ⟨t, ht, ?_⟩
  unfold dispatchAndAdvance
  rw [ht, onReturn_next]
  cases h : t.mode.absorbing <;> simp

theorem State.advance_cases (s : State) :
    (s.wordModel.fits (s.pc + 1) = true ∧ s.advance = s.setPc (s.pc + 1)) ∨
      (s.wordModel.fits (s.pc + 1) = false ∧ s.advance = s.takeFault (.width (s.pc + 1))) :=
  State.checkW_cases _ _ s

theorem stepOnce_of_fetch {s : State} {line : Line} (h : s.fetch? = some line) :
    stepOnce s = onReturn (dispatchAndAdvance line s) (fun t => t.emitDump.enter .idle) := by
  simp only [stepOnce, h]

theorem stepOnce_of_none {s : State} (h : s.fetch? = none) : stepOnce s = .next s.boundsViolation := by
  simp only [stepOnce, h]

theorem runOnce_of_outOfRange {s : State} (h : s.outOfRunRange = true) : runOnce s = .next s.boundsViolation := by
  simp only [runOnce, h, if_true]

theorem runOnce_of_none {s : State} (h : s.outOfRunRange = false) (hf : s.fetch? = none) :
    runOnce s = .next ((s.raise .runCompleted).enter .idle) := by
  simp only [runOnce, h, hf, Bool.false_eq_true, if_false]

theorem runOnce_of_fetch {s : State} {line : Line} (h : s.outOfRunRange = false) (hf : s.fetch? = some line) :
    runOnce s = onReturn (dispatchAndAdvance line s) State.countDispatch := by
  simp only [runOnce, h, hf, Bool.false_eq_true, if_false]

/-- After a dispatch of Run: one more counted, and at the watermark the pause (rules R187, R188). -/
theorem State.countDispatch_eq (s : State) :
    s.countDispatch =
      if s.wm + 1 = 1000 then
        { s with wm := 1000, mode := .awaitConfirm, out := s.out ++ [.dump s.dump, .cond .watermarkPause] }
      else { s with wm := s.wm + 1 } := by
  by_cases h : s.wm + 1 = 1000
  · have hw : s.wm + 1 = Config.watermark := h
    simp only [State.countDispatch, hw, if_true, State.pause, State.emitDump_eq_emit, State.raise_eq_emit, State.emit,
      State.enter, List.append_assoc, List.cons_append, List.nil_append]
    rfl
  · have hw : ¬ s.wm + 1 = Config.watermark := h
    simp only [State.countDispatch, hw, h, if_false]

/-- Load: the first 128 lines, and the warning where there are more (rule R180). -/
theorem State.load_eq (lines : List Line) (s : State) :
    s.load lines = { s with
      programIn := .taken
      prog := lines.take 128
      out := s.out ++ if 128 < lines.length then [.cond (.progTruncated lines.length)] else [] } := by
  by_cases h : 128 < lines.length
  · simp only [State.load, h, if_true, State.raise_eq_emit, State.emit, Config.progMax]
  · simp only [State.load, h, if_false, List.append_nil, Config.progMax]

theorem steps_succ {k : Nat} {s t : State} (h : step s = .next t) : steps (k + 1) s = steps k t := by
  simp only [steps, h]

/-- Where a step changes nothing, no number of steps does. -/
theorem steps_of_fixed {s : State} (h : step s = .next s) (k : Nat) : steps k s = .next s := by
  induction k with
  | zero => rfl
  | succ k ih => rw [steps_succ h, ih]

end Sys2Proof.Machine
end

