-- ==== Sys2Proof/Laws/Text.lean ====
section
/-!
SUPPORT. Digits and integers as text, and what the decoder's width test says.
-/
namespace Sys2Proof

theorem digitValue_digitChar (d : Nat) (h : d < 10) : digitValue (digitChar d) = some d := by
  interval_cases d <;> decide

theorem digitsValue_append {acc n : Nat} {l : List Char} (t : List Char) (h : digitsValue acc l = some n) :
    digitsValue acc (l ++ t) = digitsValue n t := by
  induction l generalizing acc with
  | nil => simp only [digitsValue, Option.some.injEq] at h; simp [h]
  | cons c cs ih =>
    simp only [digitsValue, List.cons_append] at h ⊢
    split at h
    · exact ih h
    · cases h

theorem digitsOf_append (fuel n : Nat) (tail : List Char) : digitsOf fuel n tail = digitsOf fuel n [] ++ tail := by
  induction fuel generalizing n tail with
  | zero => rfl
  | succ f ih =>
    simp only [digitsOf]
    split
    · rfl
    · rw [ih, ih (n / 10) [_]]; simp

theorem digitsOf_ne_nil (fuel n : Nat) (tail : List Char) (h : 0 < fuel) : digitsOf fuel n tail ≠ [] := by
  induction fuel generalizing n tail with
  | zero => omega
  | succ f ih =>
    simp only [digitsOf]
    split
    · simp
    · rcases f with _ | f
      · simp [digitsOf]
      · exact ih _ _ (by omega)

/-- The digits printed for a number denote it. -/
theorem digitsValue_digitsOf (fuel n : Nat) (h : n < fuel) : digitsValue 0 (digitsOf fuel n []) = some n := by
  induction fuel generalizing n with
  | zero => omega
  | succ f ih =>
    have hd := digitValue_digitChar (n % 10) (by omega)
    simp only [digitsOf]
    split
    · have : n % 10 = n := by omega
      rw [this] at hd ⊢; simp [digitsValue, hd]
    · rw [digitsOf_append, digitsValue_append _ (ih (n / 10) (by omega))]
      simp only [digitsValue, hd, Option.some.injEq]; omega

theorem parseDigits_digitsOf (n : Nat) : parseDigits (digitsOf (n + 1) n []) = some n := by
  have h2 := digitsValue_digitsOf (n + 1) n (by omega)
  cases hd : digitsOf (n + 1) n [] with
  | nil => exact absurd hd (digitsOf_ne_nil (n + 1) n [] (by omega))
  | cons c cs => rw [hd] at h2; simpa [parseDigits] using h2

/-- Only digits have a value. -/
theorem digitValue_isSome {acc n : Nat} {l : List Char} (h : digitsValue acc l = some n) :
    ∀ c ∈ l, (digitValue c).isSome := by
  induction l generalizing acc with
  | nil => simp
  | cons c cs ih =>
    simp only [digitsValue] at h
    split at h
    · rename_i d hd
      intro x hx
      rcases List.mem_cons.mp hx with rfl | hx
      · simp [hd]
      · exact ih h x hx
    · cases h

theorem parseInt_of_parseDigits {t : List Char} {n : Nat} (h : parseDigits t = some n) : parseInt t = some (n : Int) := by
  cases t with
  | nil => simp [parseDigits] at h
  | cons c cs =>
    have hc := digitValue_isSome (acc := 0) (n := n) h c (by simp)
    unfold parseInt
    split
    · rename_i h1; injection h1 with h1; subst h1; exact absurd hc (by decide)
    · rename_i h1; injection h1 with h1; subst h1; exact absurd hc (by decide)
    · simp [h]

/-- Reading back a printed integer gives it. -/
theorem parseInt_printInt (n : Int) : parseInt (printInt n) = some n := by
  cases n with
  | ofNat n => exact parseInt_of_parseDigits (parseDigits_digitsOf n)
  | negSucc n =>
    simp only [printInt, parseInt, parseDigits_digitsOf (n + 1)]
    rfl

theorem isWs_of_digit {c : Char} (h : (digitValue c).isSome) : isWs c = false := by
  unfold digitValue at h
  split at h
  · rename_i hc
    simp only [isWs, List.contains_eq_mem, decide_eq_false_iff_not, List.mem_cons, List.not_mem_nil, or_false]
    omega
  · simp at h

/-- A printed integer is a token. -/
theorem isToken_printInt (n : Int) : isToken (printInt n) = true := by
  have key (m : Nat) : ∀ c ∈ digitsOf (m + 1) m [], isWs c = false := fun c hc =>
    isWs_of_digit (digitValue_isSome (digitsValue_digitsOf _ m (by omega)) c hc)
  cases n with
  | ofNat n =>
    simp only [isToken, printInt, Bool.and_eq_true, List.all_eq_true, Bool.not_eq_true']
    exact ⟨by simpa using digitsOf_ne_nil (n + 1) n [] (by omega), key n⟩
  | negSucc n =>
    simp only [isToken, printInt, Bool.and_eq_true, List.all_eq_true, Bool.not_eq_true']
    refine ⟨rfl, fun c hc => ?_⟩
    rcases List.mem_cons.mp hc with rfl | hc
    · decide
    · exact key (n + 1) c hc

/-- A literal is too wide only where it does not fit. -/
theorem decodeIn_tooWide {wm : WordModel} {line : Line} {n : Int} (h : decodeIn wm line = .tooWide n) :
    wm.fits n = false := by
  have hk (k : Int → Instr) (ops : List (List Char)) (h : decodeInt wm k ops = .tooWide n) : wm.fits n = false := by
    cases ops with
    | nil => cases h
    | cons t ts =>
      simp only [decodeInt] at h
      split at h
      · cases h
      · split at h
        · cases h
        · rename_i hf; injection h with h; subst h; simpa using hf
  unfold decodeIn at h
  cases hs : splitWs line with
  | nil => rw [hs] at h; cases h
  | cons op ops =>
    rw [hs] at h
    simp only [decodeTokens] at h
    split at h
    · cases h
    · cases h
    · rename_i k _; cases ops <;> cases h
    · rename_i k _; exact hk k ops h

end Sys2Proof
end

