-- ==== Sys2Proof/Laws/Exec.lean ====
section
/-!
SUPPORT. All that an instruction can do, said once: `exec_cases` inverts exec, and later proofs go by its cases.
-/
namespace Sys2Proof.Machine

/-- The next states of an instruction in `s`, one case for each branch of a meaning. -/
inductive ExecCase (s : State) : Instr → State → Prop
  /-- FAULT_MEM_BOUNDS, of LDA and STR (rule R53). -/
  | memFault (i : Instr) (n : SymName) (hi : i = .lda n ∨ i = .str n) (ha : ¬ (0 ≤ s.lookup n ∧ s.lookup n < 256)) :
      ExecCase s i (s.takeFault (.memBounds (s.lookup n)))
  /-- FAULT_WIDTH, of DEC, ADD, SUB and JZS under Fixed(W) (rule R225). -/
  | widthFault (i : Instr) (v : Int) (hi : (∃ n, i = .dec n) ∨ i = .add ∨ i = .sub ∨ ∃ n, i = .jzs n)
      (hw : s.wordModel.fits v = false) : ExecCase s i (s.takeFault (.width v))
  | dec (n : SymName) (h : s.wordModel.fits (s.nfa + 1) = true) : ExecCase s (.dec n) (s.declare n)
  | add (h : s.wordModel.fits (s.acc + s.dr) = true) : ExecCase s .add (s.storeResult (s.acc + s.dr))
  | sub (h : s.wordModel.fits (s.acc - s.dr) = true) : ExecCase s .sub (s.storeResult (s.acc - s.dr))
  | lda (n : SymName) (h0 : 0 ≤ s.lookup n) (h1 : s.lookup n < 256) :
      ExecCase s (.lda n) { s with acc := Memory.read s.mem (s.lookup n).toNat }
  | ldi (n : Int) : ExecCase s (.ldi n) { s with acc := n }
  | str (n : SymName) (hr : inRange s.acc = true) (h0 : 0 ≤ s.lookup n) (h1 : s.lookup n < 256) :
      ExecCase s (.str n) { s with mem := Memory.write s.mem (s.lookup n).toNat s.acc }
  | strRefused (n : SymName) (hr : inRange s.acc = false) : ExecCase s (.str n) (s.raise (.storeOutOfRange s.acc))
  | xch : ExecCase s .xch { s with acc := s.dr, dr := s.acc }
  | jmp (n : Int) (h0 : 0 ≤ n) (h1 : n ≤ 127) : ExecCase s (.jmp n) (s.setPc (n - 1))
  | jmpRefused (n : Int) (h : ¬ (0 ≤ n ∧ n ≤ 127)) : ExecCase s (.jmp n) (s.raise (.jumpOutOfRange n))
  | jzsTaken (n : Int) (hz : s.z = true) (h : s.wordModel.fits (n - 1) = true) : ExecCase s (.jzs n) (s.setPc (n - 1))
  | jzsNotTaken (n : Int) (hz : s.z = false) : ExecCase s (.jzs n) s
  | hlt : ExecCase s .hlt (((s.emitDump.raise .halted).emit (.exit .success)).enter .haltedHLT)

theorem exec_cases {i : Instr} {s t : State} (h : exec i s = .next t) : ExecCase s i t := by
  cases i <;> simp only [exec] at h
  case dec n =>
    injection h with h; subst h
    rcases State.checkW_cases (s.nfa + 1) (State.declare n) s with ⟨hf, e⟩ | ⟨hf, e⟩ <;> rw [e]
    · exact .dec n hf
    · exact .widthFault _ _ (.inl ⟨n, rfl⟩) hf
  case add =>
    injection h with h; subst h
    rcases State.checkW_cases (s.acc + s.dr) (State.storeResult (s.acc + s.dr)) s with ⟨hf, e⟩ | ⟨hf, e⟩ <;> rw [e]
    · exact .add hf
    · exact .widthFault _ _ (.inr (.inl rfl)) hf
  case sub =>
    injection h with h; subst h
    rcases State.checkW_cases (s.acc - s.dr) (State.storeResult (s.acc - s.dr)) s with ⟨hf, e⟩ | ⟨hf, e⟩ <;> rw [e]
    · exact .sub hf
    · exact .widthFault _ _ (.inr (.inr (.inl rfl))) hf
  case lda n =>
    simp only [execLda, loadNamed, memRead_eq] at h
    split_ifs at h with ha <;> simp only [Host.Outcome.next.injEq] at h <;> subst h
    · exact .lda n ha.1 ha.2
    · exact .memFault _ n (.inl rfl) ha
  case ldi n => injection h with h; subst h; exact .ldi n
  case str n =>
    simp only [execStr, storeNamed, memWrite_eq] at h
    split_ifs at h with hr ha <;> simp only [Host.Outcome.next.injEq] at h <;> subst h
    · exact .str n hr ha.1 ha.2
    · exact .memFault _ n (.inr rfl) ha
    · exact .strRefused n (by simpa using hr)
  case xch => injection h with h; subst h; exact .xch
  case jmp n =>
    simp only [execJmp, jumpInRange_iff] at h
    split_ifs at h with hn <;> simp only [Host.Outcome.next.injEq] at h <;> subst h
    · exact .jmp n hn.1 hn.2
    · exact .jmpRefused n hn
  case jzs n =>
    simp only [execJzs, jumpWrite] at h
    split_ifs at h with hz <;> simp only [Host.Outcome.next.injEq] at h <;> subst h
    · rcases State.checkW_cases (n - 1) (State.setPc (n - 1)) s with ⟨hf, e⟩ | ⟨hf, e⟩ <;> rw [e]
      · exact .jzsTaken n hz hf
      · exact .widthFault _ _ (.inr (.inr (.inr ⟨n, rfl⟩))) hf
    · exact .jzsNotTaken n (by simpa using hz)
  case hlt => injection h with h; subst h; exact .hlt

/-- The next states of a dispatch of `line` in `s` (rule R186). -/
inductive DispatchCase (s : State) (line : Line) : State → Prop
  | performed (i : Instr) (t : State) (hd : decodeIn s.wordModel line = .ok i) (h : ExecCase s i t) : DispatchCase s line t
  | unknown (hd : decodeIn s.wordModel line = .unknown) : DispatchCase s line (s.raise (.unknownOpcode line))
  | malformed (hd : decodeIn s.wordModel line = .malformed) : DispatchCase s line (s.raise (.malformedOperand line))
  | tooWide (n : Int) (hd : decodeIn s.wordModel line = .tooWide n) (hw : s.wordModel.fits n = false) :
      DispatchCase s line (s.takeFault (.width n))

theorem dispatchLine_cases {line : Line} {s t : State} (h : dispatchLine line s = .next t) : DispatchCase s line t := by
  unfold dispatchLine at h
  split at h
  · rename_i i hd; exact .performed i t hd (exec_cases h)
  · rename_i hd; injection h with h; subst h; exact .unknown hd
  · rename_i hd; injection h with h; subst h; exact .malformed hd
  · rename_i n hd; injection h with h; subst h; exact .tooWide n hd (decodeIn_tooWide hd)

/-- A dispatch that returns leaves MODE, WM, the word model, the program and the input ports as they were. -/
theorem dispatch_keeps {line : Line} {s t : State} (h : DispatchCase s line t) (ha : t.mode.absorbing = false) :
    t.mode = s.mode ∧ t.wm = s.wm ∧ t.wordModel = s.wordModel ∧ t.prog = s.prog ∧ t.programIn = s.programIn ∧
      t.commandIn = s.commandIn ∧ t.confirmIn = s.confirmIn := by
  cases h with
  | performed i t hd h =>
    cases h with
    | memFault i n hi hb => cases ha
    | widthFault i v hi hw => cases ha
    | hlt => cases ha
    | _ => exact ⟨rfl, rfl, rfl, rfl, rfl, rfl, rfl⟩
  | unknown hd => exact ⟨rfl, rfl, rfl, rfl, rfl, rfl, rfl⟩
  | malformed hd => exact ⟨rfl, rfl, rfl, rfl, rfl, rfl, rfl⟩
  | tooWide n hd hw => cases ha

end Sys2Proof.Machine
end

