-- ==== Sys2Proof/Laws/PerInstr.lean ====
section
/-!
SUPPORT. The law that each instruction's keyword selects that instruction, in the format the table gives it
(30_encoding.md rules R72, R73, R76): one lemma per constructor.
-/
namespace Sys2Proof.Laws.Keyword

/-- The keyword is a token of three characters, and it selects the instruction itself (format T0), or its
constructor, of a name (TS) or of an integer (TI). -/
def Statement (i : Instr) : Prop :=
  i.keyword.length = 3 ∧ isToken i.keyword = true ∧
    match i.format with
    | .t0 => select i.keyword = some (.plain i)
    | .ts => ∃ k n, select i.keyword = some (.ofName k) ∧ k n = i
    | .ti => ∃ k n, select i.keyword = some (.ofInt k) ∧ k n = i

theorem dec (s : SymName) : Statement (.dec s) := ⟨rfl, rfl, .dec, s, rfl, rfl⟩
theorem add : Statement .add := ⟨rfl, rfl, rfl⟩
theorem sub : Statement .sub := ⟨rfl, rfl, rfl⟩
theorem lda (s : SymName) : Statement (.lda s) := ⟨rfl, rfl, .lda, s, rfl, rfl⟩
theorem ldi (n : Int) : Statement (.ldi n) := ⟨rfl, rfl, .ldi, n, rfl, rfl⟩
theorem str (s : SymName) : Statement (.str s) := ⟨rfl, rfl, .str, s, rfl, rfl⟩
theorem xch : Statement .xch := ⟨rfl, rfl, rfl⟩
theorem jmp (n : Int) : Statement (.jmp n) := ⟨rfl, rfl, .jmp, n, rfl, rfl⟩
theorem jzs (n : Int) : Statement (.jzs n) := ⟨rfl, rfl, .jzs, n, rfl, rfl⟩
theorem hlt : Statement .hlt := ⟨rfl, rfl, rfl⟩

end Sys2Proof.Laws.Keyword
end

