-- ==== Sys2Proof/Laws/Step.lean ====
section
/-!
SUPPORT. All that a step can do, said once: `step_cases` inverts the step, and later proofs go by its cases.
-/
namespace Sys2Proof.Machine

/-- The state after a returning dispatch that left `t`: traced, PC advanced (rules R182, R186). -/
def State.traced (line : Line) (t : State) : State := (t.emitTrace line).setPc (t.pc + 1)

/-- The next states of one step of `s`, one case for each way a transition can go. -/
inductive StepCase (s : State) : State → Prop
  /-- The core waits for the host, or is in an absorbing mode. -/
  | stays (h : s.mode ≠ .stepping ∧ s.mode ≠ .running) : StepCase s s
  | load (lines : List Line) (hm : s.mode = .idle ∨ s.mode = .haltedBounds) (hp : s.programIn = .supplied lines) :
      StepCase s (s.load lines)
  | command (c : Command) (rest : List Command) (hm : s.mode = .idle ∨ s.mode = .haltedBounds)
      (hp : s.programIn = .taken) (hc : s.commandIn = c :: rest) : StepCase s (perform c { s with commandIn := rest })
  | bounds (hm : s.mode = .stepping ∨ s.mode = .running) : StepCase s s.boundsViolation
  | completed (hm : s.mode = .running) : StepCase s ((s.raise .runCompleted).enter .idle)
  /-- The dispatch ended the session: HLT or a fault. -/
  | ended (line : Line) (t : State) (hm : s.mode = .stepping ∨ s.mode = .running) (hf : s.fetch? = some line)
      (hd : DispatchCase s line t) (ha : t.mode.absorbing = true) : StepCase s t
  /-- The dispatch returned and the advance does not fit (log entry 12). -/
  | advanceFault (line : Line) (t : State) (hm : s.mode = .stepping ∨ s.mode = .running) (hf : s.fetch? = some line)
      (hd : DispatchCase s line t) (ha : t.mode.absorbing = false) (hw : t.wordModel.fits (t.pc + 1) = false) :
      StepCase s ((t.emitTrace line).takeFault (.width (t.pc + 1)))
  | stepped (line : Line) (t : State) (hm : s.mode = .stepping) (hf : s.fetch? = some line)
      (hd : DispatchCase s line t) (ha : t.mode.absorbing = false) (hw : t.wordModel.fits (t.pc + 1) = true) :
      StepCase s ((t.traced line).emitDump.enter .idle)
  | ran (line : Line) (t : State) (hm : s.mode = .running) (hf : s.fetch? = some line) (hpc : s.pc < 128)
      (hd : DispatchCase s line t) (ha : t.mode.absorbing = false) (hw : t.wordModel.fits (t.pc + 1) = true) :
      StepCase s (t.traced line).countDispatch
  | confirmed (rest : List Bool) (hm : s.mode = .awaitConfirm) (hc : s.confirmIn = true :: rest) :
      StepCase s { s with confirmIn := rest, wm := 0, mode := .running }
  | declined (rest : List Bool) (hm : s.mode = .awaitConfirm) (hc : s.confirmIn = false :: rest) :
      StepCase s (({ s with confirmIn := rest }.raise .runDeclined).enter .idle)

/-- DispatchAndAdvance, by how it ends. -/
theorem dispatchAndAdvance_next {line : Line} {s u : State} (h : dispatchAndAdvance line s = .next u) :
    ∃ t, DispatchCase s line t ∧
      ((t.mode.absorbing = true ∧ u = t) ∨
       (t.mode.absorbing = false ∧ t.wordModel.fits (t.pc + 1) = true ∧ u = t.traced line) ∨
       (t.mode.absorbing = false ∧ t.wordModel.fits (t.pc + 1) = false ∧
        u = (t.emitTrace line).takeFault (.width (t.pc + 1)))) := by
  obtain ⟨t, ht, ⟨ha, e⟩ | ⟨ha, e⟩⟩ := dispatchAndAdvance_cases line s
  · exact ⟨t, dispatchLine_cases ht, .inl ⟨ha, by rw [h] at e; injection e⟩⟩
  · refine ⟨t, dispatchLine_cases ht, .inr ?_⟩
    rw [h] at e; injection e with e
    rcases State.advance_cases (t.emitTrace line) with ⟨hf, ea⟩ | ⟨hf, ea⟩
    · exact .inl ⟨ha, hf, by rw [e, ea]; rfl⟩
    · exact .inr ⟨ha, hf, by rw [e, ea]; rfl⟩

theorem await_cases (s : State) (hm : s.mode = .idle ∨ s.mode = .haltedBounds) : StepCase s (await s) := by
  have hs : s.mode ≠ .stepping ∧ s.mode ≠ .running := by rcases hm with h | h <;> rw [h] <;> exact ⟨nofun, nofun⟩
  unfold await
  split
  · exact .stays hs
  · rename_i lines hp; exact .load lines hm hp
  · rename_i hp
    split
    · exact .stays hs
    · rename_i c rest hc; exact .command c rest hm hp hc

theorem step_cases {s t : State} (h : step s = .next t) : StepCase s t := by
  cases hm : s.mode with
  | idle => rw [step_idle hm] at h; injection h with h; subst h; exact await_cases s (.inl hm)
  | haltedBounds => rw [step_haltedBounds hm] at h; injection h with h; subst h; exact await_cases s (.inr hm)
  | stepping =>
    rw [step_stepping hm] at h
    cases hf : s.fetch? with
    | none => rw [stepOnce_of_none hf] at h; injection h with h; subst h; exact .bounds (.inl hm)
    | some line =>
      rw [stepOnce_of_fetch hf] at h
      obtain ⟨u, hu, hk⟩ := onReturn_eq_next h
      obtain ⟨w, hd, ⟨ha, rfl⟩ | ⟨ha, hw, rfl⟩ | ⟨ha, hw, rfl⟩⟩ := dispatchAndAdvance_next hu
      · rcases hk with ⟨_, rfl⟩ | ⟨hn, _⟩
        · exact .ended line _ (.inl hm) hf hd ha
        · rw [ha] at hn; cases hn
      · rcases hk with ⟨hn, _⟩ | ⟨_, rfl⟩
        · have : w.mode.absorbing = true := hn
          rw [ha] at this; cases this
        · exact .stepped line w hm hf hd ha hw
      · rcases hk with ⟨_, rfl⟩ | ⟨hn, _⟩
        · exact .advanceFault line w (.inl hm) hf hd ha hw
        · cases hn
  | running =>
    rw [step_running hm] at h
    cases ho : s.outOfRunRange with
    | true => rw [runOnce_of_outOfRange ho] at h; injection h with h; subst h; exact .bounds (.inr hm)
    | false =>
      have hpc : s.pc < 128 := by
        by_contra hn
        rw [(State.outOfRunRange_iff s).2 (.inr (by omega))] at ho; cases ho
      cases hf : s.fetch? with
      | none => rw [runOnce_of_none ho hf] at h; injection h with h; subst h; exact .completed hm
      | some line =>
        rw [runOnce_of_fetch ho hf] at h
        obtain ⟨u, hu, hk⟩ := onReturn_eq_next h
        obtain ⟨w, hd, ⟨ha, rfl⟩ | ⟨ha, hw, rfl⟩ | ⟨ha, hw, rfl⟩⟩ := dispatchAndAdvance_next hu
        · rcases hk with ⟨_, rfl⟩ | ⟨hn, _⟩
          · exact .ended line _ (.inr hm) hf hd ha
          · rw [ha] at hn; cases hn
        · rcases hk with ⟨hn, _⟩ | ⟨_, rfl⟩
          · have : w.mode.absorbing = true := hn
            rw [ha] at this; cases this
          · exact .ran line w hm hf hpc hd ha hw
        · rcases hk with ⟨_, rfl⟩ | ⟨hn, _⟩
          · exact .advanceFault line w (.inr hm) hf hd ha hw
          · cases hn
  | awaitConfirm =>
    rw [step_awaitConfirm hm] at h
    injection h with h
    subst h
    unfold confirm
    split
    · exact .stays (by rw [hm]; exact ⟨nofun, nofun⟩)
    · rename_i rest hc; exact .confirmed rest hm hc
    · rename_i rest hc; exact .declined rest hm hc
  | haltedHLT =>
    rw [step_absorbing (by rw [hm]; rfl)] at h
    injection h with h; subst h; exact .stays (by rw [hm]; exact ⟨nofun, nofun⟩)
  | quit =>
    rw [step_absorbing (by rw [hm]; rfl)] at h
    injection h with h; subst h; exact .stays (by rw [hm]; exact ⟨nofun, nofun⟩)
  | faulted =>
    rw [step_absorbing (by rw [hm]; rfl)] at h
    injection h with h; subst h; exact .stays (by rw [hm]; exact ⟨nofun, nofun⟩)

end Sys2Proof.Machine
end

