-- ==== Sys2Proof/Tests/Slice0.lean ====
section
/-!
SUPPORT. Small tests of one step each: the well-formedness smoke test, lines decoded as spec/95_test_vectors.md gives
them, vectors of each instruction, and for each statement with hypotheses a witness that meets them.
-/
namespace Sys2Proof.Tests
open Sys2Proof Sys2Proof.Machine Sys2Proof.Claims

/-! ### Well-formedness -/

theorem test_wf_accepts_a_token : (Instr.dec ['x']).wf = true ∧ (Instr.ldi (-32769)).wf = true := by decide
theorem test_wf_refuses_empty_dec : (Instr.dec []).wf = false := by decide
theorem test_wf_refuses_space_in_lda : (Instr.lda ['a', ' ', 'b']).wf = false := by decide
theorem test_wf_refuses_newline_in_str : (Instr.str ['a', '\n']).wf = false := by decide

/-! ### Decoding: the lines of 95_test_vectors.md section 2, character by character -/

/-- `DEC x` (D-13), by its character codes. -/
theorem test_decode_dec :
    decode ([0x44, 0x45, 0x43, 0x20, 0x78].map Char.ofNat) = .ok (.dec ['x']) := by decide
/-- `ADD` and ` ADD ` with a carriage return (D-1 to D-3). -/
theorem test_decode_add : decode ([0x41, 0x44, 0x44].map Char.ofNat) = .ok .add ∧
    decode [' ', 'A', 'D', 'D', ' ', '\r'] = .ok .add := by decide
/-- `SUB`. -/
theorem test_decode_sub : decode ([0x53, 0x55, 0x42].map Char.ofNat) = .ok .sub := by decide
/-- `LDA q`, and `LDA` (D-18). -/
theorem test_decode_lda : decode ([0x4C, 0x44, 0x41, 0x20, 0x71].map Char.ofNat) = .ok (.lda ['q']) ∧
    decode ['L', 'D', 'A'] = .malformed := by decide
/-- `LDI -7`, `LDI +7`, `LDI 007` (D-21 to D-23). -/
theorem test_decode_ldi : decode ([0x4C, 0x44, 0x49, 0x20, 0x2D, 0x37].map Char.ofNat) = .ok (.ldi (-7)) ∧
    decode ['L', 'D', 'I', ' ', '+', '7'] = .ok (.ldi 7) ∧
    decode ['L', 'D', 'I', ' ', '0', '0', '7'] = .ok (.ldi 7) := by decide
/-- `STR x y` (D-19). -/
theorem test_decode_str :
    decode ([0x53, 0x54, 0x52, 0x20, 0x78, 0x20, 0x79].map Char.ofNat) = .ok (.str ['x']) := by decide
/-- `XCH`, a tab, `DR` (D-41). -/
theorem test_decode_xch : decode ([0x58, 0x43, 0x48, 0x09, 0x44, 0x52].map Char.ofNat) = .ok .xch := by decide
/-- `JMP 300` (D-39), and `JMP x` (D-36). -/
theorem test_decode_jmp : decode ([0x4A, 0x4D, 0x50, 0x20, 0x33, 0x30, 0x30].map Char.ofNat) = .ok (.jmp 300) ∧
    decode ['J', 'M', 'P', ' ', 'x'] = .malformed := by decide
/-- `JZS 12`, and `JZS abc` (D-37). -/
theorem test_decode_jzs : decode ([0x4A, 0x5A, 0x53, 0x20, 0x31, 0x32].map Char.ofNat) = .ok (.jzs 12) ∧
    decode ['J', 'Z', 'S', ' ', 'a', 'b', 'c'] = .malformed := by decide
/-- `HLT now` (D-40). -/
theorem test_decode_hlt :
    decode ([0x48, 0x4C, 0x54, 0x20, 0x6E, 0x6F, 0x77].map Char.ofNat) = .ok .hlt := by decide
/-- `add`, `ADD:`, the empty line, spaces (D-5, D-7, D-8, D-9). -/
theorem test_decode_unknown : decode ['a', 'd', 'd'] = .unknown ∧ decode ['A', 'D', 'D', ':'] = .unknown ∧
    decode [] = .unknown ∧ decode [' ', ' ', ' '] = .unknown := by decide
/-- `LDI 0x10`, `LDI +`, `LDI - 5` (D-31, D-33, D-34). -/
theorem test_decode_malformed : decode ['L', 'D', 'I', ' ', '0', 'x', '1', '0'] = .malformed ∧
    decode ['L', 'D', 'I', ' ', '+'] = .malformed ∧ decode ['L', 'D', 'I', ' ', '-', ' ', '5'] = .malformed := by decide
/-- `LDI 2147483647` and `LDI 2147483648` under Fixed(32) (D-27, D-28). -/
theorem test_decode_width :
    decodeIn (.fixed 32) ['L', 'D', 'I', ' ', '2', '1', '4', '7', '4', '8', '3', '6', '4', '7'] = .ok (.ldi 2147483647) ∧
    decodeIn (.fixed 32) ['L', 'D', 'I', ' ', '2', '1', '4', '7', '4', '8', '3', '6', '4', '8'] =
      .tooWide 2147483648 := by decide
/-- `LDI 5` as the bytes 4C 44 49 20 35, the first the least significant (log entry 2). -/
theorem test_table_word : decodeTableWord 40 0x352049444C = some (.ldi 5) ∧
    step (State.reset.withFetchWord 40 0x352049444C) = .next { State.reset with
      acc := 5, pc := 1, prog := [['L', 'D', 'I', ' ', '5']], programIn := .taken, mode := .idle
      out := [.trace ⟨['L', 'D', 'I', ' ', '5'], 5, 0, 0, false, false⟩, .dump ⟨5, 0, 1, false, false, []⟩] } :=
  ⟨by decide, rfl⟩

/-! ### States -/

/-- A loaded core with `x` bound to word 128. -/
def demo : State :=
  { State.reset with
    acc := 7, dr := 3, nfa := 129, programIn := .taken
    mem := [(0, 9), (128, 42)], sym := [(['x'], 128)], prog := [['A', 'D', 'D'], ['X', 'C', 'H']] }

/-- The same core about to dispatch `line` under a Step command. -/
def demoAt (line : Line) : State := { demo with prog := [line], mode := .stepping }

/-- A core of 17-bit words whose registers are at the upper bound. -/
def full17 : State := { demo with wordModel := .fixed 17, acc := 65535, nfa := 65535 }

/-! ### Instructions: 95_test_vectors.md sections 3 to 7 -/

/-- V-DEC-3: declaring `x` again moves the name to 129. -/
theorem test_dec_again : exec (.dec ['x']) demo = .next { demo with sym := [(['x'], 129)], nfa := 130 } := rfl
/-- V-AR-5: 32767 + 1 is stored, with V set. -/
theorem test_add_overflow : exec .add { demo with acc := 32767, dr := 1 } =
    .next { demo with acc := 32768, dr := 1, v := true } := rfl
/-- V-AR-9: the sum 0 sets Z and clears V. -/
theorem test_add_zero : exec .add { demo with acc := 40000, dr := -40000, v := true } =
    .next { demo with acc := 0, dr := -40000, z := true, v := false } := rfl
/-- V-AR-17: 3 - 5 is -2. -/
theorem test_sub_order : exec .sub { demo with acc := 3, dr := 5 } =
    .next { demo with acc := -2, dr := 5 } := rfl
/-- V-AR-14: -32768 - 1 is stored, with V set. -/
theorem test_sub_overflow : exec .sub { demo with acc := -32768, dr := 1 } =
    .next { demo with acc := -32769, dr := 1, v := true } := rfl
/-- V-LS-1. -/
theorem test_lda : exec (.lda ['x']) { demo with z := true, v := true } =
    .next { demo with acc := 42, z := true, v := true } := rfl
/-- V-LS-2: an undeclared name reads word 0. -/
theorem test_lda_undeclared : exec (.lda ['g']) demo = .next { demo with acc := 9 } := rfl
/-- V-LS-7: no range check, no flag. -/
theorem test_ldi : exec (.ldi (-32769)) { demo with z := true } =
    .next { demo with acc := -32769, z := true } := rfl
/-- V-LS-8. -/
theorem test_str : exec (.str ['x']) demo = .next { demo with mem := [(0, 9), (128, 7)] } := rfl
/-- V-LS-15: the range test comes before the address. -/
theorem test_str_refused : exec (.str ['w']) { demo with acc := 40000, sym := [(['w'], 300)] } =
    .next { demo with acc := 40000, sym := [(['w'], 300)], out := [.cond (.storeOutOfRange 40000)] } := rfl
/-- V-X-3. -/
theorem test_xch : exec .xch { demo with acc := 32768, dr := -1, v := true } =
    .next { demo with acc := -1, dr := 32768, v := true } := rfl
/-- V-CT-2: JMP 0 leaves -1 for the advance. -/
theorem test_jmp : exec (.jmp 0) { demo with pc := 3 } = .next { demo with pc := -1 } := rfl
/-- V-CT-4: JMP 128 is refused. -/
theorem test_jmp_refused : exec (.jmp 128) { demo with pc := 5 } =
    .next { demo with pc := 5, out := [.cond (.jumpOutOfRange 128)] } := rfl
/-- V-CT-10: a taken JZS is not checked. -/
theorem test_jzs_taken : exec (.jzs 500) { demo with pc := 8, z := true } =
    .next { demo with pc := 499, z := true } := rfl
/-- V-CT-8. -/
theorem test_jzs_not_taken : exec (.jzs 12) { demo with pc := 8 } = .next { demo with pc := 8 } := rfl
/-- V-C-17: final dump, HALTED, exit; no trace and no advance. -/
theorem test_hlt : step { demoAt ['H', 'L', 'T'] with mem := [], sym := [] } =
    .next { demoAt ['H', 'L', 'T'] with
      mem := [], sym := [], mode := .haltedHLT
      out := [.dump ⟨7, 3, 0, false, false, []⟩, .cond .halted, .exit .success] } := rfl
/-- V-LS-16: an address outside data memory faults and nothing is written. -/
theorem test_mem_fault : exec (.str ['w']) { demo with sym := [(['w'], 300)] } =
    .next { demo with sym := [(['w'], 300)], mode := .faulted, out := [.cond (.fault (.memBounds 300))] } := rfl

/-! ### The controller: 95_test_vectors.md section 8 -/

/-- V-C-2: Step at the end of the program. -/
theorem test_step_bounds : step { demo with pc := 2, mode := .stepping } =
    .next { demo with pc := 2, mode := .haltedBounds, out := [.cond (.pcBounds 2)] } := rfl
/-- V-C-6: Run on an empty program. -/
theorem test_run_empty : step { demo with prog := [], mode := .running } =
    .next { demo with prog := [], mode := .idle, out := [.cond .runCompleted] } := rfl
/-- V-C-8: an input that is no command. -/
theorem test_bad_command : step { demo with commandIn := [.other] } =
    .next { demo with out := [.cond (.badCommand .other)] } := rfl

/-! ### Witnesses: the hypotheses of each statement can be met -/

theorem test_witness_DecodeOfEncode :
    (∀ i ∈ [Instr.dec ['x'], .add, .sub, .lda ['5'], .ldi (-65536), .str ['é'], .xch, .jmp 127, .jzs 65535, .hlt],
      i.wf = true ∧ i.fitsIn (.fixed 17) = true) ∧ (Instr.ldi 65536).fitsIn .unbounded = true := by decide

theorem test_witness_DecodedInstructionIsWellFormed :
    decodeIn .unbounded ['D', 'E', 'C', ' ', 'x'] = .ok (.dec ['x']) ∧
    decodeIn (.fixed 17) ['L', 'D', 'I', ' ', '6', '5', '5', '3', '5'] = .ok (.ldi 65535) := by decide

theorem test_witness_ExtraTokensIgnored :
    (Instr.str ['x']).wf = true ∧ (Instr.str ['x']).fitsIn (.fixed 17) = true ∧ isWs '\t' = true ∧
      encode (.str ['x']) ++ '\t' :: ['y'] = ['S', 'T', 'R', ' ', 'x', '\t', 'y'] := by decide

theorem test_witness_TokensAreMaximalRuns :
    isWs (Char.ofNat 0x0B) = true ∧ isWs (Char.ofNat 0x0C) = true ∧ isWs (Char.ofNat 0xA0) = false ∧
      isToken ['A', ':'] = true ∧ isToken [] = false := by decide

theorem test_witness_IntegerSpelling :
    ([0, 9] : List (Fin 10)) ≠ [] ∧ parseInt ['0', '9'] = some 9 ∧ parseInt ['-', '9'] = some (-9) ∧
      parseInt ['+', '9'] = some 9 := by decide

/-- Each clause of the width test, at its bounds. -/
theorem test_witness_WidthTest : 17 ≤ 17 ∧ (WordModel.fixed 17).fits 65535 = true ∧
    (WordModel.fixed 17).fits 65536 = false ∧ (WordModel.fixed 17).fits (-65536) = true ∧
    (WordModel.fixed 17).fits (-65537) = false := by decide

/-- Sessions of 17-bit words with a command queued, before the load, of 128 lines and of 129. -/
theorem test_witness_ResetAndLoad :
    (∀ n ∈ [128, 129], (State.session (.fixed 17) (List.replicate n []) [.run] []).mode = .idle ∧
      (State.session (.fixed 17) (List.replicate n []) [.run] []).programIn = .supplied (List.replicate n [])) ∧
    ¬ 128 < (List.replicate 128 ([] : Line)).length ∧ 128 < (List.replicate 129 ([] : Line)).length :=
  ⟨fun _ _ => ⟨rfl, rfl⟩, by simp, by simp⟩

theorem test_witness_InvariantsHoldAtReset : (WordModel.fixed 17).legal = true ∧ WordModel.unbounded.legal = true := by
  decide

/-- A line for each of the ten decoding clauses, with its operand present or missing. -/
theorem test_witness_Selects :
    splitWs ['D', 'E', 'C', ' ', 'x'] = [['D', 'E', 'C'], ['x']] ∧ splitWs ['D', 'E', 'C'] = [['D', 'E', 'C']] ∧
    splitWs ['L', 'D', 'A', ' ', 'x'] = [['L', 'D', 'A'], ['x']] ∧ splitWs ['S', 'T', 'R'] = [['S', 'T', 'R']] ∧
    splitWs ['A', 'D', 'D', ' ', '5'] = [['A', 'D', 'D'], ['5']] ∧ splitWs ['S', 'U', 'B'] = [['S', 'U', 'B']] ∧
    splitWs ['X', 'C', 'H'] = [['X', 'C', 'H']] ∧ splitWs ['H', 'L', 'T'] = [['H', 'L', 'T']] ∧
    splitWs ['L', 'D', 'I', ' ', 'q'] = [['L', 'D', 'I'], ['q']] ∧
    splitWs ['J', 'M', 'P', ' ', '5'] = [['J', 'M', 'P'], ['5']] ∧
    splitWs ['J', 'Z', 'S'] = [['J', 'Z', 'S']] := by decide

theorem test_witness_DecBindsNextAddress :
    demo.wordModel.fits (demo.nfa + 1) = true ∧ ['y'] ≠ ['x'] := by decide

theorem test_witness_DecFaultsOnWideCounter : full17.wordModel.fits (full17.nfa + 1) = false := by decide

theorem test_witness_AddStoresExactSum :
    demo.wordModel.fits (demo.acc + demo.dr) = true ∧ full17.wordModel.fits (full17.acc + full17.dr) = false := by
  decide

theorem test_witness_SubStoresExactDifference :
    full17.wordModel.fits (full17.acc - full17.dr) = true ∧
      { full17 with acc := -65535 }.wordModel.fits (-65535 - full17.dr) = false := by decide

/-- Addresses at both bounds, and just outside them. -/
theorem test_witness_LdaLoadsNamedWord :
    (∀ a ∈ [0, 255], 0 ≤ (({ demo with sym := [(['x'], a)] }.binding? ['x']).getD 0) ∧
      (({ demo with sym := [(['x'], a)] }.binding? ['x']).getD 0) ≤ 255) ∧
    (∀ a ∈ [-1, 256], ¬ (0 ≤ (({ demo with sym := [(['x'], a)] }.binding? ['x']).getD 0) ∧
      (({ demo with sym := [(['x'], a)] }.binding? ['x']).getD 0) ≤ 255)) := by decide

/-- The three cases of STR: refused at 32768 and -32769, stored at the bounds, faulting at 256. -/
theorem test_witness_StrStoresInRangeAccumulator :
    (∀ x ∈ [32768, -32769], ¬ (-32768 ≤ { demo with acc := x }.acc ∧ { demo with acc := x }.acc ≤ 32767)) ∧
    (∀ x ∈ [32767, -32768], -32768 ≤ { demo with acc := x }.acc ∧ { demo with acc := x }.acc ≤ 32767) ∧
    (demo.binding? ['x']).getD 0 = 128 ∧
    ¬ (({ demo with sym := [(['x'], 256)] }.binding? ['x']).getD 0) ≤ 255 := by decide

theorem test_witness_XchSwaps : exec .xch demo = .next { demo with acc := 3, dr := 7 } := rfl

theorem test_witness_JmpChecksItsTarget :
    (∀ n ∈ [0, 127], (0 : Int) ≤ n ∧ n ≤ 127) ∧ (∀ n ∈ [-1, 128], ¬ ((0 : Int) ≤ n ∧ n ≤ 127)) := by decide

theorem test_witness_JzsTestsZero : demo.z = false ∧ { demo with z := true }.z = true ∧
    demo.wordModel.fits (500 - 1) = true ∧ full17.wordModel.fits (-65536 - 1) = false := by decide

theorem test_witness_HltEndsTheSession :
    let s := demoAt ['H', 'L', 'T']
    Dispatches ['H', 'L', 'T'] s ∧ decodeIn s.wordModel ['H', 'L', 'T'] = .ok .hlt ∧
      ∃ t, step s = .next t ∧ t.mode = .haltedHLT ∧ s.mode ≠ .haltedHLT :=
  ⟨⟨by decide, rfl, .inl rfl⟩, by decide, _, rfl, rfl, by decide⟩

theorem test_witness_LoadAfterStore : 0 ≤ demo.lookup ['x'] ∧ demo.lookup ['x'] ≤ 255 := by decide

theorem test_witness_UndeclaredNamesAlias :
    demo.binding? ['a'] = none ∧ demo.binding? ['b'] = none ∧ -32768 ≤ demo.acc ∧ demo.acc ≤ 32767 := by decide

/-- The invariant holds of a state with bindings and words, and the last free word is still in data memory. -/
theorem test_witness_FreshWordIsZero :
    demo.Inv ∧ demo.wordModel.fits (demo.nfa + 1) = true ∧ demo.nfa ≤ 255 ∧
      { demo with nfa := 255 }.Inv := by decide

theorem test_witness_RedeclarationMovesTheName :
    demo.Inv ∧ demo.binding? ['x'] = some 128 ∧ demo.wordModel.fits (demo.nfa + 1) = true := by decide

theorem test_witness_OverflowRefusedByStore :
    (Instr.sub = .add ∨ Instr.sub = .sub) ∧ demo.wordModel.fits (demo.acc + demo.dr) = true ∧
      demo.wordModel.fits (demo.acc - demo.dr) = true := by decide

/-- Hypotheses of the statements over every instruction: a next state, of an instruction that writes no flag. -/
theorem test_witness_OnlyArithmeticWritesFlags :
    exec (.ldi 0) demo = .next { demo with acc := 0 } ∧ Instr.ldi 0 ≠ .add ∧ Instr.ldi 0 ≠ .sub :=
  ⟨rfl, by decide, by decide⟩

/-- One instruction that writes each piece. -/
theorem test_witness_WritersOfEachPiece :
    exec (.ldi 1) demo = .next { demo with acc := 1 } ∧ exec .xch demo = .next { demo with acc := 3, dr := 7 } ∧
    exec (.jmp 1) demo = .next { demo with pc := 0 } ∧
    exec .add { demo with dr := -7, v := true } =
      .next { demo with dr := -7, acc := 0, z := true, v := false } ∧
    exec (.str ['q']) demo = .next { demo with mem := [(0, 7), (128, 42)] } ∧
    exec (.dec ['y']) demo = .next { demo with sym := [(['x'], 128), (['y'], 129)], nfa := 130 } :=
  ⟨rfl, rfl, rfl, rfl, rfl, rfl⟩

/-- An instruction that writes V, one that does not, and one that emits a dump. -/
theorem test_witness_OverflowFlagIsNeverRead :
    exec .add demo = .next { demo with acc := 10 } ∧ WritesV .add demo ∧
    exec (.ldi 1) demo = .next { demo with acc := 1 } ∧ ¬ WritesV (.ldi 1) demo ∧
    ∃ t, exec .hlt demo = .next t ∧ t.out ≠ [] :=
  ⟨rfl, .inl ⟨rfl, rfl⟩, rfl, fun h => h.elim nofun nofun, _, rfl, by decide⟩

theorem test_witness_OutOfRangeValuesComeFromArithmetic :
    demo.Inv ∧ exec (.lda ['x']) demo = .next { demo with acc := 42 } ∧ { demo with acc := 42 }.mode ≠ .faulted ∧
      inRange demo.acc = true ∧ inRange demo.dr = true ∧ exec (.ldi 40000) demo = .next { demo with acc := 40000 } ∧
      inRange 40000 = false :=
  ⟨by decide, rfl, by decide, by decide, by decide, rfl, by decide⟩

theorem test_witness_NamesDenoteZeroOrDeclared :
    demo.Inv ∧ demo.binding? ['q'] = none ∧ demo.binding? ['x'] ≠ none := by decide

theorem test_witness_MemoryPrimitives :
    ((-1 : Int) < 0 ∨ (256 : Int) ≤ -1) ∧ ((256 : Int) < 0 ∨ (256 : Int) ≤ 256) ∧
      ((0 : Int) ≤ 0 ∧ (0 : Int) < 256) ∧ ((0 : Int) ≤ 255 ∧ (255 : Int) < 256) := by decide

theorem dispatches_demoAt (line : Line) : Dispatches line (demoAt line) := ⟨Int.le_refl 0, rfl, .inl rfl⟩

/-- An instruction that returns and one that ends the session. -/
theorem test_witness_StepRunsDecodedInstruction :
    Dispatches ['A', 'D', 'D'] (demoAt ['A', 'D', 'D']) ∧ decodeIn .unbounded ['A', 'D', 'D'] = .ok .add ∧
    exec .add (demoAt ['A', 'D', 'D']) = .next { demoAt ['A', 'D', 'D'] with acc := 10 } ∧
    { demoAt ['A', 'D', 'D'] with acc := 10 }.mode.absorbing = false ∧
    decodeIn .unbounded ['H', 'L', 'T'] = .ok .hlt ∧
    (∃ t, exec .hlt (demoAt ['H', 'L', 'T']) = .next t ∧ t.mode.absorbing = true) :=
  ⟨dispatches_demoAt _, by decide, rfl, by decide, by decide, _, rfl, rfl⟩

/-- A line at PC 127, the last legal one, in a run. -/
theorem test_witness_Dispatches_running :
    Dispatches ['X', 'C', 'H']
      { demo with pc := 127, mode := .running, prog := List.replicate 127 [] ++ [['X', 'C', 'H']] } :=
  ⟨by decide, by decide, .inr ⟨rfl, by decide⟩⟩

theorem test_witness_UndecodedLineIsReportedNoOp :
    (∀ line, Dispatches line (demoAt line) ∧ (demoAt line).wordModel.fits ((demoAt line).pc + 1) = true) ∧
      decodeIn .unbounded ['a', 'd', 'd'] = .unknown ∧ decodeIn .unbounded ['L', 'D', 'I'] = .malformed :=
  ⟨fun _ => ⟨dispatches_demoAt _, rfl⟩, by decide, by decide⟩

theorem test_witness_WideLiteralFaults :
    Dispatches ['L', 'D', 'I', ' ', '6', '5', '5', '3', '6']
      { demoAt ['L', 'D', 'I', ' ', '6', '5', '5', '3', '6'] with wordModel := .fixed 17 } ∧
    decodeIn (.fixed 17) ['L', 'D', 'I', ' ', '6', '5', '5', '3', '6'] = .tooWide 65536 :=
  ⟨⟨by decide, rfl, .inl rfl⟩, by decide⟩

/-- Each command, read in Idle and in HaltedBounds. -/
theorem test_witness_CommandsArePerformed :
    ∀ c ∈ [Command.step, .run, .quit, .other],
      Commanding { demo with commandIn := [c] } ∧
        Commanding { demo with commandIn := [c], mode := .haltedBounds } :=
  fun _ _ => ⟨⟨.inl rfl, rfl⟩, ⟨.inr rfl, rfl⟩⟩

/-- A step in another mode, with a command waiting. -/
theorem test_witness_NoCommandElsewhere :
    let s := { demo with mode := .awaitConfirm, commandIn := [.quit] }
    step s = .next s ∧ s.mode ≠ .idle ∧ s.mode ≠ .haltedBounds := ⟨rfl, by decide, by decide⟩

/-- A Step command with PC before the program, just past it, and at its last line. -/
theorem test_witness_StepCommand :
    let s (p : Int) := { demo with pc := p, commandIn := [.step] }
    (∀ p, Commanding (s p) ∧ (s p).commandIn = .step :: []) ∧ (s (-1)).pc < 0 ∧
      ((s 2).prog.length : Int) ≤ (s 2).pc ∧ 0 ≤ (s 1).pc ∧ (s 1).pc < (s 1).prog.length :=
  ⟨fun _ => ⟨⟨.inl rfl, rfl⟩, rfl⟩, by decide, by decide, by decide, by decide⟩

/-- The three cases of the loop: -1 and 128, the highest PC past the end of the program, and its last line. -/
theorem test_witness_RunLoop :
    let s (p : Int) := { demo with pc := p, mode := .running }
    (∀ p, (s p).mode = .running) ∧ (s (-1)).pc < 0 ∧ 128 ≤ (s 128).pc ∧
      (0 ≤ (s 127).pc ∧ (s 127).pc < 128 ∧ ((s 127).prog.length : Int) ≤ (s 127).pc) ∧
      (0 ≤ (s 1).pc ∧ (s 1).pc < 128 ∧ (s 1).pc < (s 1).prog.length) :=
  ⟨fun _ => rfl, by decide, by decide, by decide, by decide⟩

theorem test_witness_WatermarkPause :
    Dispatches ['A', 'D', 'D'] { demo with mode := .running, wm := 999 } ∧
    (∃ t, dispatchAndAdvance ['A', 'D', 'D'] { demo with mode := .running, wm := 999 } = .next t ∧
      t.mode.absorbing = false) ∧
    { demo with mode := .awaitConfirm, confirmIn := [true] }.confirmIn = true :: [] ∧
    { demo with mode := .awaitConfirm, confirmIn := [false] }.confirmIn = false :: [] :=
  ⟨⟨by decide, rfl, .inr ⟨rfl, by decide⟩⟩, ⟨_, rfl, rfl⟩, rfl, rfl⟩

theorem test_witness_CoreWaitsForTheHost :
    (State.reset.mode = .idle ∧ State.reset.programIn = .absent) ∧
      ({ demo with mode := .haltedBounds }.programIn = .taken ∧ demo.commandIn = []) := by decide

theorem test_witness_AbsorbingModesAreForEver :
    ∀ m ∈ [Mode.haltedHLT, .quit, .faulted],
      { demo with mode := m }.mode = .haltedHLT ∨ { demo with mode := m }.mode = .quit ∨
        { demo with mode := m }.mode = .faulted := by decide

/-- Targets at both bounds. -/
theorem test_witness_JmpLandsOnTarget :
    Dispatches ['J', 'M', 'P', ' ', '0'] (demoAt ['J', 'M', 'P', ' ', '0']) ∧
    decodeIn .unbounded ['J', 'M', 'P', ' ', '0'] = .ok (.jmp 0) ∧
    decodeIn .unbounded ['J', 'M', 'P', ' ', '1', '2', '7'] = .ok (.jmp 127) ∧
    (demoAt []).wordModel.legal = true :=
  ⟨dispatches_demoAt _, by decide, by decide, by decide⟩

theorem test_witness_JzsBranchesOnZero :
    let s := { demoAt ['J', 'Z', 'S', ' ', '-', '3'] with z := true }
    s.Inv ∧ Dispatches ['J', 'Z', 'S', ' ', '-', '3'] s ∧
      decodeIn s.wordModel ['J', 'Z', 'S', ' ', '-', '3'] = .ok (.jzs (-3)) ∧ s.wordModel.fits (-3 - 1) = true :=
  ⟨by decide, ⟨by decide, rfl, .inl rfl⟩, by decide, by decide⟩

/-- A step that changes MODE. -/
theorem test_witness_ModeTransitions :
    step { demo with commandIn := [.run] } = .next { demo with mode := .running } := rfl

/-- A step from a state with the invariant into Faulted. -/
theorem test_witness_FaultsArePrecise :
    let s := { demoAt ['L', 'D', 'A', ' ', 'x'] with sym := [(['x'], 256)], nfa := 257 }
    s.Inv ∧ step s = .next (faultedBy (.memBounds 256) s) ∧ s.mode ≠ .faulted :=
  ⟨by decide, rfl, by decide⟩

theorem test_witness_NoWidthFaultUnbounded :
    let s := { demo with out := [.cond (.fault (.width 5))] }
    s.wordModel = .unbounded ∧ step s = .next s ∧ Output.cond (.fault (.width 5)) ∈ s.out :=
  ⟨rfl, rfl, by decide⟩

/-- A program is received by a core that has none, and not by one that has loaded its own. -/
theorem test_witness_HostOnlySuppliesInputs : State.reset.programIn = .absent ∧ demo.programIn ≠ .absent := by decide

theorem test_witness_DumpShowsEachBinding :
    SymTable.wf { demo with sym := [(['a'], 300), (['x'], 128)] }.sym ∧
      { demo with sym := [(['a'], 300), (['x'], 128)] }.dump.names = [⟨['a'], 300, none⟩, ⟨['x'], 128, some 42⟩] := by
  decide

theorem test_witness_StepKeepsInvariant :
    let s := demoAt ['S', 'T', 'R', ' ', 'x']
    s.Inv ∧ ∃ t, step s = .next t ∧ t.mem = [(0, 9), (128, 7)] :=
  ⟨by decide, _, rfl, rfl⟩

/-- A state in which one DEC has run. -/
theorem test_witness_NfaCountsDeclarations :
    let s := { demo with out := [.trace ⟨['D', 'E', 'C', ' ', 'x'], 0, 0, 0, false, false⟩] }
    s.nfa = 128 + (s.declarations : Int) ∧ step s = .next s := ⟨by decide, rfl⟩

theorem test_witness_ProgramIsReadOnly : demo.programIn = .taken ∧ steps 3 demo = .next demo := ⟨rfl, rfl⟩

theorem test_witness_RunPausesWithinWatermark :
    { demo with mode := .running, wm := 999 }.Inv ∧ { demo with mode := .running, wm := 999 }.mode = .running := by
  decide

end Sys2Proof.Tests
end

section
/-!
PROOFS. The scope of the model (00_scope.md): the width test of rule R15.
-/
open Sys2Proof Sys2Proof.Machine Sys2Proof.Claims

namespace Sys2Proof.Proofs

theorem signBound_eq_pow (W : Nat) : signBound W = (2 : Int) ^ (W - 1) := Int.natCast_pow 2 (W - 1)

/-- What a fault leaves (rules R190, R233), in the words of the statements. -/
theorem takeFault_eq_faultedBy (f : Fault) (s : State) : s.takeFault f = faultedBy f s := rfl

/-- Settles O9: the bound of the model is the power of rule R15, and `checkW` has one answer for each outcome of the
test. -/
theorem widthTest : Obligations.WidthTest := by
  refine ⟨WordModel.fits_unbounded, fun W v _ => ?_, fun v k s => ⟨fun fit => ?_, fun unfit => ?_⟩⟩
  · exact signBound_eq_pow W ▸ WordModel.fits_fixed_iff W v
  · exact State.checkW_of_fits fit k
  · rw [State.checkW_of_not_fits unfit, takeFault_eq_faultedBy]

end Sys2Proof.Proofs
end

section
/-!
PROOFS. The encoding (30_encoding.md): the tokens of a line, rule R71.
-/
open Sys2Proof Sys2Proof.Machine Sys2Proof.Claims

namespace Sys2Proof.Proofs

/-! ### Whitespace and tokens -/

/-- The six codes of the model are the six characters of rule R71. -/
theorem isWs_iff_mem (c : Char) :
    isWs c = true ↔ c ∈ [' ', '\t', '\n', Char.ofNat 0x0B, Char.ofNat 0x0C, '\r'] := by
  have codes : [0x20, 0x09, 0x0A, 0x0B, 0x0C, 0x0D] =
      [' ', '\t', '\n', Char.ofNat 0x0B, Char.ofNat 0x0C, '\r'].map Char.toNat := by decide
  rw [isWs, codes, List.contains_iff_mem]
  exact List.mem_map_of_injective fun _ _ => Char.toNat_inj.mp

@[simp] theorem beginsToken_cons (c : Char) (cs : List Char) : beginsToken (c :: cs) = !isWs c := rfl

@[simp] theorem isToken_nil : isToken [] = false := rfl

theorem isToken_singleton (c : Char) : isToken [c] = !isWs c := by simp [isToken]

/-- A longer token is a non-whitespace character in front of a token. -/
theorem isToken_cons_cons (c d : Char) (t : List Char) :
    isToken (c :: d :: t) = (!isWs c && isToken (d :: t)) := by simp [isToken]

theorem beginsToken_append_of_isToken {t : List Char} (token : isToken t = true) (rest : List Char) :
    beginsToken (t ++ rest) = true := by
  cases t with
  | nil => simp at token
  | cons c t => simp_all [isToken]

/-! ### Splitting -/

@[simp] theorem splitWs_nil : splitWs [] = [] := rfl

theorem splitWs_cons_of_isWs {c : Char} (ws : isWs c = true) (cs : List Char) : splitWs (c :: cs) = splitWs cs := by
  simp [splitWs, ws]

/-- A character whose run ends with it is a token of its own. -/
theorem splitWs_cons_of_run_ends {c : Char} {cs : List Char} (notWs : isWs c = false)
    (ends : beginsToken cs = false) : splitWs (c :: cs) = [c] :: splitWs cs := by
  simp [splitWs, notWs, ends]

/-- A character whose run goes on belongs to the first token of the rest. -/
theorem splitWs_cons_of_run_goes_on {c : Char} {cs : List Char} (notWs : isWs c = false)
    (goesOn : beginsToken cs = true) : splitWs (c :: cs) = joinHead c (splitWs cs) := by
  simp [splitWs, notWs, goesOn]

/-- A token is the first token of a line when no character of a token follows it: the run is maximal (rule R71). -/
theorem splitWs_token_append {t rest : List Char} (token : isToken t = true) (ends : beginsToken rest = false) :
    splitWs (t ++ rest) = t :: splitWs rest := by
  induction t with
  | nil => simp at token
  | cons c t ih =>
    cases t with
    | nil => exact splitWs_cons_of_run_ends (by simpa [isToken_singleton] using token) ends
    | cons d t =>
      obtain ⟨notWs, tail⟩ : isWs c = false ∧ isToken (d :: t) = true := by
        simpa [isToken_cons_cons] using token
      calc splitWs (c :: (d :: t ++ rest))
        _ = joinHead c (splitWs (d :: t ++ rest)) :=
          splitWs_cons_of_run_goes_on notWs (beginsToken_append_of_isToken tail rest)
        _ = joinHead c ((d :: t) :: splitWs rest) := by rw [ih tail]
        _ = (c :: d :: t) :: splitWs rest := rfl

/-- A token alone on a line is its only token. -/
theorem splitWs_of_isToken {t : List Char} (token : isToken t = true) : splitWs t = [t] := by
  simpa using splitWs_token_append (rest := []) token rfl

/-- Whitespace behind a token ends it. -/
theorem splitWs_token_append_ws {t : List Char} {c : Char} (token : isToken t = true) (ws : isWs c = true)
    (cs : List Char) : splitWs (t ++ c :: cs) = t :: splitWs cs := by
  rw [splitWs_token_append token (by simp [ws]), splitWs_cons_of_isWs ws]

/-- Settles O4: the clauses on tokens are the two ways a run can end, at the end of the line and at whitespace. -/
theorem tokensAreMaximalRuns : Obligations.TokensAreMaximalRuns :=
  ⟨isWs_iff_mem, splitWs_nil, fun _ cs ws => splitWs_cons_of_isWs ws cs, fun _ => splitWs_of_isToken,
    fun _ _ cs token ws => splitWs_token_append_ws token ws cs⟩

end Sys2Proof.Proofs
end

section
/-!
PROOFS. DEC (41_declare.md): its decoding (30_encoding.md rules R73, R74, R81), the binding and the counter.
-/
open Sys2Proof Sys2Proof.Machine Sys2Proof.Claims

namespace Sys2Proof.Proofs

/-! ### Decoding -/

/-- What a keyword of format TS selects fixes the decoding of every line that begins with it. -/
theorem selectsName_of_select {keyword : List Char} {k : SymName → Instr}
    (selected : select keyword = some (.ofName k)) : SelectsName keyword k := by
  intro wm line operands tokens
  have decoded : decodeIn wm line = decodeName k operands := by
    simp only [decodeIn, tokens, decodeTokens, selected]
  rw [decoded]
  cases operands with
  | nil => rfl
  | cons name _ => rfl

/-! ### The binding and the counter -/

theorem exec_dec_of_fits {s : State} (fit : s.wordModel.fits (s.nfa + 1) = true) (n : SymName) :
    exec (.dec n) s = .next (s.declare n) :=
  congrArg Host.Outcome.next (State.checkW_of_fits fit (State.declare n))

theorem binding?_declare (n m : SymName) (s : State) :
    (s.declare n).binding? m = if n = m then some s.nfa else s.binding? m :=
  State.binding?_bind n m s.nfa s

theorem binding?_declare_same (n : SymName) (s : State) : (s.declare n).binding? n = some s.nfa := by
  rw [binding?_declare, if_pos rfl]

theorem binding?_declare_of_ne {n m : SymName} (other : m ≠ n) (s : State) :
    (s.declare n).binding? m = s.binding? m := by
  rw [binding?_declare, if_neg other.symm]

/-- Settles O12: the frame is the definition of the two writes, and the bindings are those of a table with one
insertion. -/
theorem decBindsNextAddress : Obligations.DecBindsNextAddress :=
  ⟨selectsName_of_select rfl, fun n s fit =>
    ⟨s.declare n, exec_dec_of_fits fit n, rfl, binding?_declare_same n s,
      fun _ other => binding?_declare_of_ne other s⟩⟩

/-! ### Redeclaration -/

/-- Every bound address lies below the counter (rule R40). -/
theorem binding?_lt_nfa {s : State} (inv : s.SymbolInv) {n : SymName} {a : Int} (bound : s.binding? n = some a) :
    a < s.nfa := by
  obtain ⟨sorted, -, handedOut⟩ := inv
  exact (handedOut (n, a) ((State.mem_sym_iff sorted n a).mpr bound)).2

/-- An address below the counter is reached after DEC by the names that reached it before, but for the declared
one. -/
theorem binding?_declare_eq_some_iff {s : State} {a : Int} (old : a < s.nfa) (n m : SymName) :
    (s.declare n).binding? m = some a ↔ m ≠ n ∧ s.binding? m = some a := by
  by_cases same : m = n
  · subst same
    have moved : s.nfa ≠ a := by omega
    simp [binding?_declare_same, moved]
  · simp [binding?_declare_of_ne same, same]

/-- Settles O26: by the invariant the old address lies below the counter, so the new one is another. -/
theorem redeclarationMovesTheName : Obligations.RedeclarationMovesTheName := by
  intro n a s inv bound fit
  obtain ⟨-, symbols, -, -⟩ := inv
  exact ⟨s.declare n, exec_dec_of_fits fit n, binding?_declare_same n s, rfl, fun _ => rfl,
    binding?_declare_eq_some_iff (binding?_lt_nfa symbols bound) n⟩

end Sys2Proof.Proofs
end

section
/-!
PROOFS. ADD and SUB (42_arithmetic.md): their decoding (30_encoding.md rule R73), the stored result and the width
fault.
-/
open Sys2Proof Sys2Proof.Machine Sys2Proof.Claims

namespace Sys2Proof.Proofs

/-! ### Decoding -/

/-- What a keyword of format T0 selects is what every line that begins with it decodes to. -/
theorem selectsPlain_of_select {keyword : List Char} {i : Instr} (selected : select keyword = some (.plain i)) :
    SelectsPlain keyword i := by
  intro wm line operands tokens
  simp only [decodeIn, tokens, decodeTokens, selected]

/-! ### The result and its flags -/

/-- The flag setters change nothing but the flags, which they take from the result (rules R110, R111). -/
theorem storeResult_eq (r : Int) (s : State) :
    s.storeResult r =
      { s with acc := r, v := !decide (-32768 ≤ r ∧ r ≤ 32767), z := decide (r = 0) } := by
  rw [← inRange_eq_decide]
  rfl

/-- A failed width test faults before any of the statements it guards (rule R233). -/
theorem checkW_eq_faultedBy {r : Int} {s : State} (unfit : s.wordModel.fits r = false) (k : State → State) :
    s.checkW r k = faultedBy (.width r) s :=
  (State.checkW_of_not_fits unfit k).trans (takeFault_eq_faultedBy (.width r) s)

/-! ### ADD -/

theorem exec_add (s : State) :
    exec .add s = .next (s.checkW (s.acc + s.dr) (State.storeResult (s.acc + s.dr))) := rfl

theorem exec_add_of_fits {s : State} (fit : s.wordModel.fits (s.acc + s.dr) = true) :
    exec .add s = .next (s.storeResult (s.acc + s.dr)) := by
  rw [exec_add, State.checkW_of_fits fit]

theorem exec_add_of_not_fits {s : State} (unfit : s.wordModel.fits (s.acc + s.dr) = false) :
    exec .add s = .next (faultedBy (.width (s.acc + s.dr)) s) := by
  rw [exec_add, checkW_eq_faultedBy unfit]

/-- Settles O14: the two outcomes of the width test are the two clauses on `exec`. -/
theorem addStoresExactSum : Obligations.AddStoresExactSum := by
  refine ⟨selectsPlain_of_select rfl, fun s fit => ?_, fun _ => exec_add_of_not_fits⟩
  rw [exec_add_of_fits fit, storeResult_eq]

/-! ### SUB -/

theorem exec_sub (s : State) :
    exec .sub s = .next (s.checkW (s.acc - s.dr) (State.storeResult (s.acc - s.dr))) := rfl

theorem exec_sub_of_fits {s : State} (fit : s.wordModel.fits (s.acc - s.dr) = true) :
    exec .sub s = .next (s.storeResult (s.acc - s.dr)) := by
  rw [exec_sub, State.checkW_of_fits fit]

theorem exec_sub_of_not_fits {s : State} (unfit : s.wordModel.fits (s.acc - s.dr) = false) :
    exec .sub s = .next (faultedBy (.width (s.acc - s.dr)) s) := by
  rw [exec_sub, checkW_eq_faultedBy unfit]

/-- Settles O15: as for ADD, with the difference ACC minus DR in place of the sum. -/
theorem subStoresExactDifference : Obligations.SubStoresExactDifference := by
  refine ⟨selectsPlain_of_select rfl, fun s fit => ?_, fun _ => exec_sub_of_not_fits⟩
  rw [exec_sub_of_fits fit, storeResult_eq]

end Sys2Proof.Proofs
end

section
/-!
PROOFS. LDI and STR (43_load_store.md): their decoding (30_encoding.md rules R73 to R75, R80, R81), the loaded literal
and the stored word.
-/
open Sys2Proof Sys2Proof.Machine Sys2Proof.Claims

namespace Sys2Proof.Proofs

/-! ### STR -/

/-- One of the three branches, with the range test of ACC before the bounds test of the address (decision D16). -/
theorem exec_str (n : SymName) (s : State) :
    exec (.str n) s = .next
      (if inRange s.acc then
        if 0 ≤ s.lookup n ∧ s.lookup n < 256 then
          { s with mem := Memory.write s.mem (s.lookup n).toNat s.acc }
        else s.takeFault (.memBounds (s.lookup n))
      else s.raise (.storeOutOfRange s.acc)) := by
  simp only [exec, execStr, storeNamed, memWrite_eq]
  split_ifs <;> rfl

theorem exec_str_of_acc_out_of_range {s : State} (outOfRange : ¬ (-32768 ≤ s.acc ∧ s.acc ≤ 32767)) (n : SymName) :
    exec (.str n) s = .next (s.raise (.storeOutOfRange s.acc)) := by
  rw [exec_str, if_neg (mt (inRange_iff s.acc).mp outOfRange)]

theorem exec_str_of_address_in_bounds {s : State} {n : SymName} (range : -32768 ≤ s.acc ∧ s.acc ≤ 32767)
    (bounds : 0 ≤ s.lookup n ∧ s.lookup n ≤ 255) :
    exec (.str n) s = .next { s with mem := Memory.write s.mem (s.lookup n).toNat s.acc } := by
  rw [exec_str, if_pos ((inRange_iff s.acc).mpr range), if_pos (by omega)]

theorem exec_str_of_address_out_of_bounds {s : State} {n : SymName} (range : -32768 ≤ s.acc ∧ s.acc ≤ 32767)
    (outOfBounds : ¬ (0 ≤ s.lookup n ∧ s.lookup n ≤ 255)) :
    exec (.str n) s = .next (faultedBy (.memBounds (s.lookup n)) s) := by
  rw [exec_str, if_pos ((inRange_iff s.acc).mpr range), if_neg (by omega), takeFault_eq_faultedBy]

/-- A word written at an address that is no negative integer is read back there, and nowhere else. -/
theorem read_write_toNat {a : Int} (nonneg : 0 ≤ a) (m : List (Nat × Int)) (x : Int) (b : Nat) :
    Memory.read (Memory.write m a.toNat x) b = if (b : Int) = a then x else Memory.read m b := by
  have sameAddress : a.toNat = b ↔ (b : Int) = a := by omega
  simp only [Memory.read_write, sameAddress]

/-- Settles O18: the three clauses are the three branches of STR, and the memory of the second is one write. -/
theorem strStoresInRangeAccumulator : Obligations.StrStoresInRangeAccumulator :=
  ⟨selectsName_of_select rfl, fun n s =>
    ⟨fun outOfRange => exec_str_of_acc_out_of_range outOfRange n,
      fun range bounds =>
        ⟨_, exec_str_of_address_in_bounds range bounds, rfl, read_write_toNat bounds.1 s.mem s.acc⟩,
      fun range outOfBounds => exec_str_of_address_out_of_bounds range outOfBounds⟩⟩

/-! ### LDI -/

/-- What a keyword of format TI selects fixes the decoding of every line that begins with it. -/
theorem selectsInt_of_select {keyword : List Char} {k : Int → Instr}
    (selected : select keyword = some (.ofInt k)) : SelectsInt keyword k := by
  intro wm line operands tokens
  have decoded : decodeIn wm line = decodeInt wm k operands := by
    simp only [decodeIn, tokens, decodeTokens, selected]
  rw [decoded]
  cases operands with
  | nil => rfl
  | cons t _ => cases spelled : parseInt t <;> simp only [decodeInt, spelled]

theorem exec_ldi (n : Int) (s : State) : exec (.ldi n) s = .next { s with acc := n } := rfl

/-- Settles O17: the keyword's row of the opcode map fixes the decoding, and the meaning is one write of ACC. -/
theorem ldiLoadsLiteral : Obligations.LdiLoadsLiteral :=
  ⟨selectsInt_of_select rfl, exec_ldi⟩

end Sys2Proof.Proofs
end

section
/-!
PROOFS. XCH (44_exchange.md): its decoding (30_encoding.md rule R73) and the exchange, its own inverse.
-/
open Sys2Proof Sys2Proof.Machine Sys2Proof.Claims

namespace Sys2Proof.Proofs

theorem exec_xch (s : State) : exec .xch s = .next { s with acc := s.dr, dr := s.acc } := rfl

/-- The second exchange puts ACC and DR back, and no other field has moved (rule R151). -/
theorem exec_xch_of_exec_xch {s t : State} (exchanged : exec .xch s = .next t) : exec .xch t = .next s := by
  rw [exec_xch s] at exchanged
  obtain rfl := Host.Outcome.next.inj exchanged
  exact exec_xch _

/-- Settles O19: the keyword's row of the opcode map fixes the decoding, and the inverse follows from the exchange
itself. -/
theorem xchSwaps : Obligations.XchSwaps :=
  ⟨selectsPlain_of_select rfl, fun s => ⟨exec_xch s, fun _ => exec_xch_of_exec_xch⟩⟩

end Sys2Proof.Proofs
end

section
/-!
PROOFS. The encoding (30_encoding.md): what the encoder writes is read back (rules R82, R87), the opcode map
(rules R76, R77) and the outcomes of the decoder (rules R78 to R81).
-/
open Sys2Proof Sys2Proof.Machine Sys2Proof.Claims

namespace Sys2Proof.Proofs

/-! ### Reading back what the encoder writes -/

theorem isToken_keyword (i : Instr) : isToken i.keyword = true := by cases i <;> rfl

/-- A keyword and its operand are the first two tokens of their line. -/
theorem splitWs_keyword_operand (i : Instr) {operand rest : List Char} (token : isToken operand = true)
    (ends : beginsToken rest = false) :
    splitWs (i.keyword ++ ' ' :: operand ++ rest) = i.keyword :: operand :: splitWs rest := by
  rw [List.append_assoc, List.cons_append, splitWs_token_append_ws (isToken_keyword i) rfl,
    splitWs_token_append token ends]

theorem decodeIn_plain_append {i : Instr} {rest : List Char} (selected : select i.keyword = some (.plain i))
    (ends : beginsToken rest = false) (wm : WordModel) : decodeIn wm (i.keyword ++ rest) = .ok i :=
  selectsPlain_of_select selected wm _ _ (splitWs_token_append (isToken_keyword i) ends)

theorem decodeIn_name_append {k : SymName → Instr} {s rest : List Char}
    (selected : select (k s).keyword = some (.ofName k)) (token : isToken s = true) (ends : beginsToken rest = false)
    (wm : WordModel) : decodeIn wm ((k s).keyword ++ ' ' :: s ++ rest) = .ok (k s) :=
  selectsName_of_select selected wm _ _ (splitWs_keyword_operand (k s) token ends)

theorem decodeIn_int_append {k : Int → Instr} {n : Int} {rest : List Char} {wm : WordModel}
    (selected : select (k n).keyword = some (.ofInt k)) (fit : wm.fits n = true) (ends : beginsToken rest = false) :
    decodeIn wm ((k n).keyword ++ ' ' :: printInt n ++ rest) = .ok (k n) := by
  rw [selectsInt_of_select selected wm _ _ (splitWs_keyword_operand (k n) (isToken_printInt n) ends)]
  simp only [parseInt_printInt, fit, if_true]

/-- The encoded line decodes to its instruction, whatever follows that does not continue its last token. -/
theorem decodeIn_encode_append {wm : WordModel} {i : Instr} {rest : List Char} (wf : i.wf = true)
    (fit : i.fitsIn wm = true) (ends : beginsToken rest = false) : decodeIn wm (encode i ++ rest) = .ok i := by
  cases i with
  | add => exact decodeIn_plain_append (i := .add) rfl ends wm
  | sub => exact decodeIn_plain_append (i := .sub) rfl ends wm
  | xch => exact decodeIn_plain_append (i := .xch) rfl ends wm
  | hlt => exact decodeIn_plain_append (i := .hlt) rfl ends wm
  | dec s => exact decodeIn_name_append (k := .dec) rfl wf ends wm
  | lda s => exact decodeIn_name_append (k := .lda) rfl wf ends wm
  | str s => exact decodeIn_name_append (k := .str) rfl wf ends wm
  | ldi n => exact decodeIn_int_append (k := .ldi) rfl fit ends
  | jmp n => exact decodeIn_int_append (k := .jmp) rfl fit ends
  | jzs n => exact decodeIn_int_append (k := .jzs) rfl fit ends

/-- Settles O1: the case of nothing behind the encoded line. -/
theorem decodeOfEncode : Obligations.DecodeOfEncode := by
  intro wm i wf fit
  simpa using decodeIn_encode_append (rest := []) wf fit rfl

/-- Settles O3: whitespace does not continue the last token, so the text behind it is not read. -/
theorem extraTokensIgnored : Obligations.ExtraTokensIgnored :=
  fun _ _ _ _ wf fit ws => decodeIn_encode_append wf fit (by simp [ws])

/-! ### The opcode map -/

theorem select_eq_none_iff (op : List Char) :
    select op = none ↔ op ∉ ["DEC".toList, "ADD".toList, "SUB".toList, "LDA".toList, "LDI".toList, "STR".toList,
      "XCH".toList, "JMP".toList, "JZS".toList, "HLT".toList] := by
  simp [select, ite_eq_iff]

/-- The keywords of format T0 and their instructions. -/
theorem select_eq_plain_iff (op : List Char) (i : Instr) :
    select op = some (.plain i) ↔ op = "ADD".toList ∧ i = .add ∨ op = "SUB".toList ∧ i = .sub ∨
      op = "XCH".toList ∧ i = .xch ∨ op = "HLT".toList ∧ i = .hlt := by
  constructor
  · simp only [select, ite_eq_iff, Option.some.injEq, Selected.plain.injEq, reduceCtorEq, and_false, false_or,
      or_false, eq_comm (b := i)]
    tauto
  · rintro (⟨rfl, rfl⟩ | ⟨rfl, rfl⟩ | ⟨rfl, rfl⟩ | ⟨rfl, rfl⟩) <;> rfl

/-- The keywords of format TS and their constructors. -/
theorem select_eq_ofName_iff (op : List Char) (k : SymName → Instr) :
    select op = some (.ofName k) ↔
      op = "DEC".toList ∧ k = .dec ∨ op = "LDA".toList ∧ k = .lda ∨ op = "STR".toList ∧ k = .str := by
  constructor
  · simp only [select, ite_eq_iff, Option.some.injEq, Selected.ofName.injEq, reduceCtorEq, and_false, false_or,
      or_false, eq_comm (b := k)]
    tauto
  · rintro (⟨rfl, rfl⟩ | ⟨rfl, rfl⟩ | ⟨rfl, rfl⟩) <;> rfl

/-- The keywords of format TI and their constructors. -/
theorem select_eq_ofInt_iff (op : List Char) (k : Int → Instr) :
    select op = some (.ofInt k) ↔
      op = "LDI".toList ∧ k = .ldi ∨ op = "JMP".toList ∧ k = .jmp ∨ op = "JZS".toList ∧ k = .jzs := by
  constructor
  · simp only [select, ite_eq_iff, Option.some.injEq, Selected.ofInt.injEq, reduceCtorEq, and_false, false_or,
      or_false, eq_comm (b := k)]
    tauto
  · rintro (⟨rfl, rfl⟩ | ⟨rfl, rfl⟩ | ⟨rfl, rfl⟩) <;> rfl

/-! ### The outcomes of an operand -/

theorem decodeName_eq_malformed_iff (k : SymName → Instr) (operands : List (List Char)) :
    decodeName k operands = .malformed ↔ operands = [] := by
  cases operands <;> simp [decodeName]

theorem decodeName_ne_unknown (k : SymName → Instr) (operands : List (List Char)) :
    decodeName k operands ≠ .unknown := by
  cases operands <;> simp [decodeName]

theorem decodeName_eq_ok {k : SymName → Instr} {operands : List (List Char)} {i : Instr}
    (decoded : decodeName k operands = .ok i) : ∃ name ∈ operands, i = k name := by
  cases operands with
  | nil => cases decoded
  | cons name rest => exact ⟨name, List.mem_cons_self, (Decoded.ok.inj decoded).symm⟩

theorem decodeInt_cons_of_spelled {t : List Char} {n : Int} (spelled : parseInt t = some n) (wm : WordModel)
    (k : Int → Instr) (rest : List (List Char)) :
    decodeInt wm k (t :: rest) = if wm.fits n then .ok (k n) else .tooWide n := by
  simp only [decodeInt, spelled]

theorem decodeInt_cons_of_not_spelled {t : List Char} (notSpelled : parseInt t = none) (wm : WordModel)
    (k : Int → Instr) (rest : List (List Char)) : decodeInt wm k (t :: rest) = .malformed := by
  simp only [decodeInt, notSpelled]

theorem decodeInt_eq_malformed_iff (wm : WordModel) (k : Int → Instr) (operands : List (List Char)) :
    decodeInt wm k operands = .malformed ↔ ∀ t ∈ operands.head?, parseInt t = none := by
  cases operands with
  | nil => simp [decodeInt]
  | cons t rest =>
    cases spelled : parseInt t with
    | none => simp [decodeInt_cons_of_not_spelled spelled, spelled]
    | some n => rw [decodeInt_cons_of_spelled spelled]; split_ifs <;> simp [spelled]

theorem decodeInt_ne_unknown (wm : WordModel) (k : Int → Instr) (operands : List (List Char)) :
    decodeInt wm k operands ≠ .unknown := by
  cases operands with
  | nil => simp [decodeInt]
  | cons t rest =>
    cases spelled : parseInt t with
    | none => simp [decodeInt_cons_of_not_spelled spelled]
    | some n => rw [decodeInt_cons_of_spelled spelled]; split_ifs <;> simp

theorem decodeInt_eq_ok {wm : WordModel} {k : Int → Instr} {operands : List (List Char)} {i : Instr}
    (decoded : decodeInt wm k operands = .ok i) : ∃ n, wm.fits n = true ∧ i = k n := by
  cases operands with
  | nil => cases decoded
  | cons t rest =>
    cases spelled : parseInt t with
    | none => rw [decodeInt_cons_of_not_spelled spelled] at decoded; cases decoded
    | some n =>
      rw [decodeInt_cons_of_spelled spelled] at decoded
      split_ifs at decoded with fit
      exact ⟨n, fit, (Decoded.ok.inj decoded).symm⟩

/-! ### The outcomes of a line -/

theorem decodeTokens_eq_unknown_iff (wm : WordModel) (op : List Char) (operands : List (List Char)) :
    decodeTokens wm (op :: operands) = .unknown ↔ select op = none := by
  cases selected : select op with
  | none => simp [decodeTokens, selected]
  | some what =>
    cases what with
    | plain i => simp [decodeTokens, selected]
    | ofName k => simp [decodeTokens, selected, decodeName_ne_unknown]
    | ofInt k => simp [decodeTokens, selected, decodeInt_ne_unknown]

theorem decodeTokens_eq_malformed_iff (wm : WordModel) (op : List Char) (operands : List (List Char)) :
    decodeTokens wm (op :: operands) = .malformed ↔
      (∃ k, select op = some (.ofName k) ∧ operands = []) ∨
        ∃ k, select op = some (.ofInt k) ∧ ∀ t ∈ operands.head?, parseInt t = none := by
  cases selected : select op with
  | none => simp [decodeTokens, selected]
  | some what =>
    cases what with
    | plain i => simp [decodeTokens, selected]
    | ofName k => simp [decodeTokens, selected, decodeName_eq_malformed_iff]
    | ofInt k => simp [decodeTokens, selected, decodeInt_eq_malformed_iff]

/-- What a decoded instruction was selected by, and where its operand comes from. -/
theorem decodeTokens_eq_ok {wm : WordModel} {tokens : List (List Char)} {i : Instr}
    (decoded : decodeTokens wm tokens = .ok i) :
    (∃ op, select op = some (.plain i)) ∨
      (∃ op k, select op = some (.ofName k) ∧ ∃ name ∈ tokens, i = k name) ∨
        ∃ op k, select op = some (.ofInt k) ∧ ∃ n, wm.fits n = true ∧ i = k n := by
  cases tokens with
  | nil => cases decoded
  | cons op operands =>
    unfold decodeTokens at decoded
    cases selected : select op with
    | none => simp [selected] at decoded
    | some what =>
      cases what with
      | plain j =>
        simp only [selected, Decoded.ok.injEq] at decoded
        exact .inl ⟨op, decoded ▸ selected⟩
      | ofName k =>
        simp only [selected] at decoded
        obtain ⟨name, mem, rfl⟩ := decodeName_eq_ok decoded
        exact .inr (.inl ⟨op, k, selected, name, List.mem_cons_of_mem _ mem, rfl⟩)
      | ofInt k =>
        simp only [selected] at decoded
        exact .inr (.inr ⟨op, k, selected, decodeInt_eq_ok decoded⟩)

/-- Settles O5: only a first token that the opcode map does not hold gives the outcome unknown. -/
theorem unknownExactlyWithoutKeyword : Obligations.UnknownExactlyWithoutKeyword := by
  intro wm line
  unfold decodeIn
  cases splitWs line with
  | nil => simp [decodeTokens]
  | cons op operands =>
    rw [decodeTokens_eq_unknown_iff, select_eq_none_iff]
    simp only [List.head?_cons, Option.mem_some_iff, forall_eq']

theorem exists_select_ofName_iff (op : List Char) :
    (∃ k, select op = some (.ofName k)) ↔ op ∈ ["DEC".toList, "LDA".toList, "STR".toList] := by
  simp only [select_eq_ofName_iff, exists_or, exists_and_left, exists_eq, and_true, List.mem_cons, List.not_mem_nil,
    or_false]

theorem exists_select_ofInt_iff (op : List Char) :
    (∃ k, select op = some (.ofInt k)) ↔ op ∈ ["LDI".toList, "JMP".toList, "JZS".toList] := by
  simp only [select_eq_ofInt_iff, exists_or, exists_and_left, exists_eq, and_true, List.mem_cons, List.not_mem_nil,
    or_false]

/-- Settles O6: a keyword of format TS needs a second token, one of format TI a second token that is an integer. -/
theorem malformedExactlyOnBadOperand : Obligations.MalformedExactlyOnBadOperand := by
  intro wm line
  unfold decodeIn
  cases splitWs line with
  | nil => simp [decodeTokens]
  | cons op operands =>
    rw [decodeTokens_eq_malformed_iff, exists_and_right, exists_and_right, exists_select_ofName_iff,
      exists_select_ofInt_iff]
    refine ⟨fun bad => ⟨op, operands, rfl, bad⟩, ?_⟩
    rintro ⟨_, _, same, bad⟩
    obtain ⟨rfl, rfl⟩ := List.cons.inj same
    exact bad

/-! ### Well-formed results -/

theorem isToken_cons {c : Char} {t : List Char} (notWs : isWs c = false) (token : isToken t = true) :
    isToken (c :: t) = true := by
  simp_all [isToken]

/-- Every run that the splitting yields is a token (rule R71). -/
theorem isToken_of_mem_splitWs {line : Line} : ∀ t ∈ splitWs line, isToken t = true := by
  induction line with
  | nil => simp
  | cons c cs ih =>
    cases ws : isWs c with
    | true => rwa [splitWs_cons_of_isWs ws]
    | false =>
      have alone : isToken [c] = true := by simp [isToken_singleton, ws]
      cases ends : beginsToken cs with
      | false =>
        rw [splitWs_cons_of_run_ends ws ends]
        exact List.forall_mem_cons.mpr ⟨alone, ih⟩
      | true =>
        rw [splitWs_cons_of_run_goes_on ws ends]
        cases runs : splitWs cs with
        | nil => exact List.forall_mem_cons.mpr ⟨alone, by simp⟩
        | cons t ts =>
          rw [runs] at ih
          obtain ⟨first, others⟩ := List.forall_mem_cons.mp ih
          exact List.forall_mem_cons.mpr ⟨isToken_cons ws first, others⟩

/-- Settles O2: a name is one of the tokens of the line, and a literal has passed the width test. -/
theorem decodedInstructionIsWellFormed : Obligations.DecodedInstructionIsWellFormed := by
  intro wm line i decoded
  obtain ⟨op, plain⟩ | ⟨op, k, named, name, mem, rfl⟩ | ⟨op, k, numbered, n, fit, rfl⟩ := decodeTokens_eq_ok decoded
  · obtain ⟨-, rfl⟩ | ⟨-, rfl⟩ | ⟨-, rfl⟩ | ⟨-, rfl⟩ := (select_eq_plain_iff op i).mp plain <;> exact ⟨rfl, rfl⟩
  · have token := isToken_of_mem_splitWs name mem
    obtain ⟨-, rfl⟩ | ⟨-, rfl⟩ | ⟨-, rfl⟩ := (select_eq_ofName_iff op k).mp named <;> exact ⟨token, rfl⟩
  · obtain ⟨-, rfl⟩ | ⟨-, rfl⟩ | ⟨-, rfl⟩ := (select_eq_ofInt_iff op k).mp numbered <;> exact ⟨rfl, fit⟩

/-- What carries no literal decodes alike in every word model. -/
theorem decodeIn_ok_of_no_literal {wm : WordModel} {line : Line} {i : Instr} (decoded : decodeIn wm line = .ok i)
    (noLiteral : i.literal? = none) (wm' : WordModel) : decodeIn wm' line = .ok i := by
  unfold decodeIn at *
  cases tokens : splitWs line with
  | nil => rw [tokens] at decoded; cases decoded
  | cons op operands =>
    rw [tokens] at decoded
    unfold decodeTokens at *
    cases selected : select op with
    | none => simp [selected] at decoded
    | some what =>
      cases what with
      | plain j => simpa only [selected] using decoded
      | ofName k => simpa only [selected] using decoded
      | ofInt k =>
        simp only [selected] at decoded
        obtain ⟨n, -, rfl⟩ := decodeInt_eq_ok decoded
        obtain ⟨-, rfl⟩ | ⟨-, rfl⟩ | ⟨-, rfl⟩ := (select_eq_ofInt_iff op k).mp selected <;> cases noLiteral

/-! ### Integers -/

/-- A character with a digit value is the character of that digit. -/
theorem eq_digitChar_of_digitValue {c : Char} {d : Nat} (digit : digitValue c = some d) :
    d < 10 ∧ c = digitChar d := by
  unfold digitValue at digit
  split_ifs at digit with range
  obtain rfl := Option.some.inj digit
  refine ⟨by omega, ?_⟩
  rw [digitChar, Nat.add_sub_cancel' range.1, Char.ofNat_toNat]

/-- Text whose characters are the digits `ds`, most significant first. -/
def digitText (ds : List (Fin 10)) : List Char := ds.map (fun d => digitChar d.val)

/-- The number that the digits `ds` denote in base 10 behind the number `acc`. -/
def digitNumber (acc : Nat) (ds : List (Fin 10)) : Nat := ds.foldl (fun a d => 10 * a + d.val) acc

theorem digitsValue_digitText (acc : Nat) (ds : List (Fin 10)) :
    digitsValue acc (digitText ds) = some (digitNumber acc ds) := by
  induction ds generalizing acc with
  | nil => rfl
  | cons d ds ih =>
    have first : digitValue (digitChar d.val) = some d.val := digitValue_digitChar d.val d.isLt
    simpa only [digitText, digitNumber, List.map_cons, List.foldl_cons, digitsValue, first] using ih (10 * acc + d.val)

theorem parseDigits_digitText {ds : List (Fin 10)} (nonempty : ds ≠ []) :
    parseDigits (digitText ds) = some (digitNumber 0 ds) := by
  cases ds with
  | nil => exact absurd rfl nonempty
  | cons d ds => exact digitsValue_digitText 0 (d :: ds)

theorem exists_digitText_of_digitsValue {t : List Char} {acc n : Nat} (value : digitsValue acc t = some n) :
    ∃ ds, t = digitText ds := by
  induction t generalizing acc with
  | nil => exact ⟨[], rfl⟩
  | cons c cs ih =>
    cases digit : digitValue c with
    | none => simp [digitsValue, digit] at value
    | some d =>
      simp only [digitsValue, digit] at value
      obtain ⟨ds, rfl⟩ := ih value
      obtain ⟨small, rfl⟩ := eq_digitChar_of_digitValue digit
      exact ⟨⟨d, small⟩ :: ds, rfl⟩

theorem exists_digitText_of_parseDigits {t : List Char} {n : Nat} (value : parseDigits t = some n) :
    ∃ ds, ds ≠ [] ∧ t = digitText ds := by
  cases t with
  | nil => cases value
  | cons c cs =>
    obtain ⟨ds, text⟩ := exists_digitText_of_digitsValue value
    have nonempty : ds ≠ [] := by rintro rfl; cases text
    exact ⟨ds, nonempty, text⟩

/-- What is read as an integer is digits alone or behind one sign. -/
theorem exists_parseDigits_of_parseInt {t : List Char} {n : Int} (value : parseInt t = some n) :
    ∃ digits m, parseDigits digits = some m ∧ (t = digits ∨ t = '+' :: digits ∨ t = '-' :: digits) := by
  unfold parseInt at value
  split at value <;> obtain ⟨m, parsed, -⟩ := Option.map_eq_some_iff.mp value
  · exact ⟨_, m, parsed, .inr (.inl rfl)⟩
  · exact ⟨_, m, parsed, .inr (.inr rfl)⟩
  · exact ⟨_, m, parsed, .inl rfl⟩

/-- Settles O7: digits are read one by one into the number they denote, and nothing but digits and one sign is read. -/
theorem integerSpelling : Obligations.IntegerSpelling := by
  refine ⟨fun ds nonempty => ?_, fun t n value => ?_⟩
  · have digits : parseDigits (digitText ds) = some (digitNumber 0 ds) := parseDigits_digitText nonempty
    exact ⟨parseInt_of_parseDigits digits, congrArg (Option.map Int.ofNat) digits,
      congrArg (Option.map fun m => -Int.ofNat m) digits⟩
  · obtain ⟨digits, m, parsed, form⟩ := exists_parseDigits_of_parseInt value
    obtain ⟨ds, nonempty, rfl⟩ := exists_digitText_of_parseDigits parsed
    exact ⟨ds, nonempty, form⟩

/-- Settles O8: five lines, evaluated. -/
theorem sampleLinesDecode : Obligations.SampleLinesDecode := by
  refine ⟨?_, ?_, ?_, ?_, ?_⟩ <;> decide

end Sys2Proof.Proofs
end

section
/-!
PROOFS. The data memory and the names (20_memory.md sections 2 and 3, 10_state.md section 7): the access primitives,
what a name denotes, and what the invariant says of a word.
-/
open Sys2Proof Sys2Proof.Machine Sys2Proof.Claims

namespace Sys2Proof.Proofs

/-! ### The access primitives -/

theorem memRead_of_outside {a : Int} (outside : a < 0 ∨ 256 ≤ a) (s : State) :
    memRead a s = .error (.memBounds a) := by
  rw [memRead_eq, if_neg (by omega)]

theorem memRead_of_inside {a : Int} (nonneg : 0 ≤ a) (below : a < 256) (s : State) :
    memRead a s = .ok (Memory.read s.mem a.toNat) := by
  rw [memRead_eq, if_pos ⟨nonneg, below⟩]

theorem memWrite_of_outside {a : Int} (outside : a < 0 ∨ 256 ≤ a) (x : Int) (s : State) :
    memWrite a x s = .error (.memBounds a) := by
  rw [memWrite_eq, if_neg (by omega)]

theorem memWrite_of_inside {a : Int} (nonneg : 0 ≤ a) (below : a < 256) (x : Int) (s : State) :
    memWrite a x s = .ok { s with mem := Memory.write s.mem a.toNat x } := by
  rw [memWrite_eq, if_pos ⟨nonneg, below⟩]

/-- Settles O33: both primitives make the same bounds test, and a write is one write of the memory. -/
theorem memoryPrimitives : Obligations.MemoryPrimitives :=
  fun _ x s =>
    ⟨fun outside => ⟨memRead_of_outside outside s, memWrite_of_outside outside x s⟩,
      fun nonneg below => ⟨memRead_of_inside nonneg below s,
        _, memWrite_of_inside nonneg below x s, rfl, read_write_toNat nonneg s.mem x⟩⟩

/-! ### What a name denotes -/

theorem lookup_of_unbound {n : SymName} {s : State} (unbound : s.binding? n = none) : s.lookup n = 0 := by
  rw [State.lookup, unbound]
  rfl

theorem lookup_of_bound {n : SymName} {s : State} {a : Int} (bound : s.binding? n = some a) : s.lookup n = a := by
  rw [State.lookup, bound]
  rfl

/-- Every bound address is at least DATA_BASE and below the counter (rule R40). -/
theorem binding?_handed_out {s : State} (inv : s.SymbolInv) {n : SymName} {a : Int} (bound : s.binding? n = some a) :
    128 ≤ a ∧ a < s.nfa := by
  obtain ⟨sorted, -, handedOut⟩ := inv
  exact handedOut (n, a) ((State.mem_sym_iff sorted n a).mpr bound)

/-- A name denotes word 0 or a word that DEC has handed out. -/
theorem lookup_cases {s : State} (inv : s.SymbolInv) (n : SymName) :
    s.lookup n = 0 ∨ (128 ≤ s.lookup n ∧ s.lookup n < s.nfa) := by
  cases bound : s.binding? n with
  | none => exact .inl (lookup_of_unbound bound)
  | some a => exact .inr (lookup_of_bound bound ▸ binding?_handed_out inv bound)

/-- Settles O32: the bindings of the symbol table are its entries, which the invariant bounds. -/
theorem namesDenoteZeroOrDeclared : Obligations.NamesDenoteZeroOrDeclared := by
  rintro n s ⟨-, symbols, -, -⟩
  refine ⟨lookup_of_unbound, fun bound => ?_⟩
  obtain ⟨a, bound⟩ := Option.ne_none_iff_exists'.mp bound
  exact lookup_of_bound bound ▸ binding?_handed_out symbols bound

/-! ### The words of a memory that meets the invariant -/

/-- Every word is in range, the unlisted ones because 0 is (rule R39). -/
theorem inRange_read {s : State} (inv : s.MemoryInv) (a : Nat) : inRange (Memory.read s.mem a) = true := by
  obtain ⟨-, words⟩ := inv
  by_cases zero : Memory.read s.mem a = 0
  · rw [zero]; rfl
  · exact (words _ (Memory.mem_of_read zero)).1

/-- A word that DEC has not handed out, other than word 0, is still 0 (rule R103). -/
theorem read_of_not_handed_out {s : State} (inv : s.MemoryInv) {a : Nat} (nonzero : a ≠ 0) (fresh : s.nfa ≤ a) :
    Memory.read s.mem a = 0 := by
  obtain ⟨-, words⟩ := inv
  by_contra written
  obtain ⟨-, rfl | ⟨-, handedOut⟩⟩ := words _ (Memory.mem_of_read written)
  · exact nonzero rfl
  · omega

/-- A value in range fits every legal word model (rules R10, R11). -/
theorem fits_of_inRange {wm : WordModel} (legal : wm.legal = true) {v : Int} (range : inRange v = true) :
    wm.fits v = true := by
  obtain ⟨lower, upper⟩ := (inRange_iff v).mp range
  exact WordModel.fits_of_legal legal (by omega) (by omega)

end Sys2Proof.Proofs
end

section
/-!
PROOFS. How a dispatch ends (48_controller.md rule R186, 60_exceptions.md section 3), and what it never writes.
-/
open Sys2Proof Sys2Proof.Machine Sys2Proof.Claims

namespace Sys2Proof.Proofs

/-! ### What HLT leaves -/

/-- The state after HLT (rule R168), in the words of the statements. -/
def haltedBy (s : State) : State :=
  { s with mode := .haltedHLT, out := s.out ++ [.dump s.dump, .cond .halted, .exit .success] }

theorem hlt_outputs_eq_haltedBy (s : State) :
    ((s.emitDump.raise .halted).emit (.exit .success)).enter .haltedHLT = haltedBy s := by
  simp [haltedBy, State.emit, State.enter]

theorem exec_hlt (s : State) : exec .hlt s = .next (haltedBy s) :=
  congrArg Host.Outcome.next (hlt_outputs_eq_haltedBy s)

/-! ### What belongs to the controller alone -/

/-- The pieces of state that no instruction and no dispatch writes (rule R20). -/
structure ControllerKept (s t : State) : Prop where
  prog : t.prog = s.prog
  wm : t.wm = s.wm
  wordModel : t.wordModel = s.wordModel
  programIn : t.programIn = s.programIn
  commandIn : t.commandIn = s.commandIn
  confirmIn : t.confirmIn = s.confirmIn

theorem exec_keeps_controller {i : Instr} {s t : State} (h : ExecCase s i t) : ControllerKept s t := by
  cases h with
  | hlt =>
    rw [hlt_outputs_eq_haltedBy]
    exact ⟨rfl, rfl, rfl, rfl, rfl, rfl⟩
  | _ => exact ⟨rfl, rfl, rfl, rfl, rfl, rfl⟩

theorem dispatch_keeps_controller {line : Line} {s t : State} (h : DispatchCase s line t) : ControllerKept s t := by
  cases h with
  | performed i t _ h => exact exec_keeps_controller h
  | unknown | malformed | tooWide => exact ⟨rfl, rfl, rfl, rfl, rfl, rfl⟩

/-! ### The three ways a dispatch ends -/

/-- A dispatch returns with MODE as it was and at most one report, or stops on a fault, or is a HLT. -/
inductive DispatchEnd (s : State) (line : Line) : State → Prop
  | returned (t : State) (mode : t.mode = s.mode)
      (out : t.out = s.out ∨ ∃ c, c.cls = .reported ∧ t.out = s.out ++ [.cond c]) : DispatchEnd s line t
  | faulted (f : Fault) (cause : ∀ v, f = .width v → s.wordModel.fits v = false) :
      DispatchEnd s line (faultedBy f s)
  | halted (decoded : decodeIn s.wordModel line = .ok .hlt) : DispatchEnd s line (haltedBy s)

theorem DispatchEnd.of_width {s : State} {v : Int} (unfit : s.wordModel.fits v = false) (line : Line) :
    DispatchEnd s line (faultedBy (.width v) s) :=
  .faulted (.width v) fun _ same => Fault.width.inj same ▸ unfit

theorem dispatch_ends {line : Line} {s t : State} (h : DispatchCase s line t) : DispatchEnd s line t := by
  cases h with
  | performed i t decoded h =>
    cases h with
    | memFault i n => exact .faulted (.memBounds (s.lookup n)) nofun
    | widthFault i v _ unfit => exact .of_width unfit line
    | strRefused | jmpRefused => exact .returned _ rfl (.inr ⟨_, rfl, rfl⟩)
    | hlt =>
      rw [hlt_outputs_eq_haltedBy]
      exact .halted decoded
    | _ => exact .returned _ rfl (.inl rfl)
  | unknown | malformed => exact .returned _ rfl (.inr ⟨_, rfl, rfl⟩)
  | tooWide n _ unfit => exact .of_width unfit line

theorem mode_of_dispatch_returned {line : Line} {s t : State} (h : DispatchCase s line t)
    (returned : t.mode.absorbing = false) : t.mode = s.mode := by
  obtain ⟨mode, -⟩ := dispatch_keeps h returned
  exact mode

/-- A dispatch that ends the session has stopped on a fault or was a HLT. -/
theorem dispatch_ended {line : Line} {s t : State} (h : DispatchCase s line t) (begun : s.mode.absorbing = false)
    (ended : t.mode.absorbing = true) :
    (∃ f, t = faultedBy f s ∧ ∀ v, f = .width v → s.wordModel.fits v = false) ∨
      (t = haltedBy s ∧ decodeIn s.wordModel line = .ok .hlt) := by
  cases dispatch_ends h with
  | returned _ mode _ => rw [mode, begun] at ended; cases ended
  | faulted f cause => exact .inl ⟨f, rfl, cause⟩
  | halted decoded => exact .inr ⟨rfl, decoded⟩

/-- The outputs of one dispatch hold at most one condition of class R or F. -/
theorem dispatch_reports_once {line : Line} {s t : State} (h : DispatchEnd s line t) :
    ∃ new, t.out = s.out ++ new ∧ new.countP Output.isReportOrFault ≤ 1 := by
  cases h with
  | returned _ _ out =>
    obtain out | ⟨c, -, out⟩ := out
    · exact ⟨[], by rw [out, List.append_nil], Nat.zero_le 1⟩
    · exact ⟨[.cond c], out, List.countP_le_length⟩
  | faulted f => exact ⟨[.cond (.fault f)], rfl, List.countP_le_length⟩
  | halted => exact ⟨_, rfl, by simp [Output.isReportOrFault, Condition.cls]⟩

/-- Settles O34: a dispatch that returns or faults emits at most one output, and a HLT only a dump, an event and the
exit request. -/
theorem oneConditionPerDispatch : Obligations.OneConditionPerDispatch := by
  intro line s
  obtain ⟨t, dispatched⟩ := dispatchLine_answers line s
  obtain ⟨new, out, once⟩ := dispatch_reports_once (dispatch_ends (dispatchLine_cases dispatched))
  exact ⟨t, new, dispatched, out, once⟩

end Sys2Proof.Proofs
end

section
/-!
PROOFS. The instructions one by one (41_declare.md to 45_control.md): decoding and meaning of LDA, JMP and JZS, the
width fault of DEC, and the laws that join a store, a load, a declaration and an overflow.
-/
open Sys2Proof Sys2Proof.Machine Sys2Proof.Claims

namespace Sys2Proof.Proofs

/-! ### DEC -/

theorem exec_dec (n : SymName) (s : State) :
    exec (.dec n) s = .next (s.checkW (s.nfa + 1) (State.declare n)) := rfl

/-- Settles O13: the width test comes before both writes of DEC. -/
theorem decFaultsOnWideCounter : Obligations.DecFaultsOnWideCounter := by
  intro n s unfit
  rw [exec_dec, checkW_eq_faultedBy unfit]

/-! ### LDA -/

theorem exec_lda (n : SymName) (s : State) :
    exec (.lda n) s = .next
      (if 0 ≤ s.lookup n ∧ s.lookup n < 256 then { s with acc := Memory.read s.mem (s.lookup n).toNat }
      else s.takeFault (.memBounds (s.lookup n))) := by
  simp only [exec, execLda, loadNamed, memRead_eq]
  split_ifs <;> rfl

theorem exec_lda_of_address_in_bounds {s : State} {n : SymName} (bounds : 0 ≤ s.lookup n ∧ s.lookup n ≤ 255) :
    exec (.lda n) s = .next { s with acc := Memory.read s.mem (s.lookup n).toNat } := by
  rw [exec_lda, if_pos (by omega)]

theorem exec_lda_of_address_out_of_bounds {s : State} {n : SymName}
    (outOfBounds : ¬ (0 ≤ s.lookup n ∧ s.lookup n ≤ 255)) :
    exec (.lda n) s = .next (faultedBy (.memBounds (s.lookup n)) s) := by
  rw [exec_lda, if_neg (by omega), takeFault_eq_faultedBy]

/-- Settles O16: the two clauses on `exec` are the two outcomes of the bounds test. -/
theorem ldaLoadsNamedWord : Obligations.LdaLoadsNamedWord :=
  ⟨selectsName_of_select rfl, fun _ _ => ⟨exec_lda_of_address_in_bounds, exec_lda_of_address_out_of_bounds⟩⟩

/-! ### JMP and JZS -/

theorem exec_jmp (n : Int) (s : State) :
    exec (.jmp n) s = .next (if 0 ≤ n ∧ n ≤ 127 then s.setPc (n - 1) else s.raise (.jumpOutOfRange n)) := by
  simp only [exec, execJmp, jumpInRange_iff, jumpWrite]
  split_ifs <;> rfl

theorem exec_jmp_of_in_range {n : Int} (range : 0 ≤ n ∧ n ≤ 127) (s : State) :
    exec (.jmp n) s = .next { s with pc := n - 1 } := by
  rw [exec_jmp, if_pos range]
  rfl

theorem exec_jmp_of_out_of_range {n : Int} (outOfRange : ¬ (0 ≤ n ∧ n ≤ 127)) (s : State) :
    exec (.jmp n) s = .next { s with out := s.out ++ [.cond (.jumpOutOfRange n)] } := by
  rw [exec_jmp, if_neg outOfRange]
  rfl

/-- Settles O20: the two clauses on `exec` are the two outcomes of the target test. -/
theorem jmpChecksItsTarget : Obligations.JmpChecksItsTarget :=
  ⟨selectsInt_of_select rfl, fun _ s =>
    ⟨fun range => exec_jmp_of_in_range range s, fun outOfRange => exec_jmp_of_out_of_range outOfRange s⟩⟩

theorem exec_jzs (n : Int) (s : State) :
    exec (.jzs n) s = .next (if s.z then s.checkW (n - 1) (State.setPc (n - 1)) else s) := by
  simp only [exec, execJzs, jumpWrite]
  split_ifs <;> rfl

theorem exec_jzs_of_clear {s : State} (clear : s.z = false) (n : Int) : exec (.jzs n) s = .next s := by
  simp [exec_jzs, clear]

theorem exec_jzs_of_set {s : State} {n : Int} (set : s.z = true) (fit : s.wordModel.fits (n - 1) = true) :
    exec (.jzs n) s = .next { s with pc := n - 1 } := by
  rw [exec_jzs, if_pos set, State.checkW_of_fits fit]
  rfl

theorem exec_jzs_of_not_fits {s : State} {n : Int} (set : s.z = true) (unfit : s.wordModel.fits (n - 1) = false) :
    exec (.jzs n) s = .next (faultedBy (.width (n - 1)) s) := by
  rw [exec_jzs, if_pos set, checkW_eq_faultedBy unfit]

/-- Settles O21: Z chooses between nothing and a jump, and the width test guards the jump. -/
theorem jzsTestsZero : Obligations.JzsTestsZero :=
  ⟨selectsInt_of_select rfl, fun n _ =>
    ⟨fun clear => exec_jzs_of_clear clear n, exec_jzs_of_set, exec_jzs_of_not_fits⟩⟩

/-! ### Stores and loads -/

/-- The state after a store at the address `a` (rule R140). -/
def storedAt (a : Int) (s : State) : State := { s with mem := Memory.write s.mem a.toNat s.acc }

theorem exec_str_eq_storedAt {s : State} {n : SymName} (range : -32768 ≤ s.acc ∧ s.acc ≤ 32767)
    (bounds : 0 ≤ s.lookup n ∧ s.lookup n ≤ 255) : exec (.str n) s = .next (storedAt (s.lookup n) s) :=
  exec_str_of_address_in_bounds range bounds

theorem read_storedAt_same (a : Int) (s : State) : Memory.read (storedAt a s).mem a.toNat = s.acc := by
  rw [storedAt, Memory.read_write, if_pos rfl]

/-- A load reads the symbol table and the memory, whatever ACC holds. -/
theorem exec_lda_of_word (t : State) {n : SymName} {a v : Int} (address : t.lookup n = a) (bounds : 0 ≤ a ∧ a ≤ 255)
    (word : Memory.read t.mem a.toNat = v) (x : Int) :
    exec (.lda n) { t with acc := x } = .next { t with acc := v } := by
  subst address word
  exact exec_lda_of_address_in_bounds (s := { t with acc := x }) bounds

/-- Settles O23: a store of a value in range is one write at the address that the load reads, and a refused store
writes no word. -/
theorem loadAfterStore : Obligations.LoadAfterStore := by
  intro n s x nonneg upper
  have bounds : 0 ≤ s.lookup n ∧ s.lookup n ≤ 255 := ⟨nonneg, upper⟩
  by_cases range : -32768 ≤ s.acc ∧ s.acc ≤ 32767
  · rw [if_pos range]
    exact ⟨storedAt (s.lookup n) s, exec_str_eq_storedAt range bounds,
      exec_lda_of_word (storedAt (s.lookup n) s) rfl bounds (read_storedAt_same _ s) x⟩
  · rw [if_neg range]
    exact ⟨_, exec_str_of_acc_out_of_range range n, exec_lda_of_word (s.raise _) rfl bounds rfl x⟩

/-- Settles O24: both names denote word 0. -/
theorem undeclaredNamesAlias : Obligations.UndeclaredNamesAlias := by
  intro a b s unboundA unboundB lower upper
  have zeroA : s.lookup a = 0 := lookup_of_unbound unboundA
  have zeroB : s.lookup b = 0 := lookup_of_unbound unboundB
  have stored : exec (.str a) s = .next (storedAt 0 s) := by
    simpa [zeroA] using exec_str_eq_storedAt (n := a) ⟨lower, upper⟩ (by omega)
  have word : Memory.read (storedAt 0 s).mem 0 = s.acc := read_storedAt_same 0 s
  exact ⟨_, _, stored, exec_lda_of_word (storedAt 0 s) zeroB (by omega) word 0, rfl, word, rfl⟩

/-- Settles O25: the address that DEC hands out was never written, by the invariant. -/
theorem freshWordIsZero : Obligations.FreshWordIsZero := by
  rintro n s ⟨memory, ⟨-, base, -⟩, -, -⟩ fit upper
  have nonneg : 128 ≤ s.nfa := base
  have address : (s.declare n).lookup n = s.nfa := lookup_of_bound (binding?_declare_same n s)
  have fresh : Memory.read s.mem s.nfa.toNat = 0 := read_of_not_handed_out memory (by omega) (by omega)
  exact ⟨s.declare n, exec_dec_of_fits fit n,
    exec_lda_of_word (s.declare n) address (by omega) fresh (s.declare n).acc⟩

/-! ### Overflow -/

/-- A store only reports exactly where ACC is out of range. -/
theorem exec_str_reports_iff (n : SymName) (s : State) :
    exec (.str n) s = .next { s with out := s.out ++ [.cond (.storeOutOfRange s.acc)] } ↔ inRange s.acc = false := by
  cases range : inRange s.acc with
  | true =>
    simp only [exec_str, range, if_true, reduceCtorEq, iff_false, Host.Outcome.next.injEq]
    intro same
    split_ifs at same <;> have out := congrArg State.out same <;> simp at out
  | false =>
    simp only [exec_str, range, Bool.false_eq_true, if_false, iff_true]
    rfl

/-- A result that an arithmetic instruction stores has V set exactly if a following STR refuses it. -/
theorem storeResult_v_iff (r : Int) (n : SymName) (s : State) :
    (s.storeResult r).v = true ↔ exec (.str n) (s.storeResult r) =
      .next { s.storeResult r with
        out := (s.storeResult r).out ++ [.cond (.storeOutOfRange (s.storeResult r).acc)] } := by
  have flag : (s.storeResult r).v = !inRange (s.storeResult r).acc := rfl
  rw [exec_str_reports_iff, flag, Bool.not_eq_true']

/-- Settles O27: V is set from the result that is stored in ACC, by the range test that STR makes of ACC. -/
theorem overflowRefusedByStore : Obligations.OverflowRefusedByStore := by
  rintro i n s (rfl | rfl) fitSum fitDifference
  · exact ⟨_, exec_add_of_fits fitSum, storeResult_v_iff _ n s⟩
  · exact ⟨_, exec_sub_of_fits fitDifference, storeResult_v_iff _ n s⟩

end Sys2Proof.Proofs
end

section
/-!
PROOFS. What the instructions leave alone (10_state.md): the frame of each piece of state (rule R20), the flags (rules
R28, R29) and the range of the registers (rule R39).
-/
open Sys2Proof Sys2Proof.Machine Sys2Proof.Claims

namespace Sys2Proof.Proofs

/-! ### Who writes each piece -/

theorem exec_writes_acc {i : Instr} {s t : State} (h : ExecCase s i t) (changed : t.acc ≠ s.acc) :
    i = .add ∨ i = .sub ∨ i = .xch ∨ (∃ n, i = .lda n) ∨ ∃ n, i = .ldi n := by
  cases h with
  | add | sub | xch | lda | ldi => simp
  | _ => simp [State.declare] at changed

theorem exec_writes_dr {i : Instr} {s t : State} (h : ExecCase s i t) (changed : t.dr ≠ s.dr) : i = .xch := by
  cases h with
  | xch => rfl
  | _ => simp [State.declare, State.storeResult] at changed

theorem exec_writes_z {i : Instr} {s t : State} (h : ExecCase s i t) (changed : t.z ≠ s.z) : i = .add ∨ i = .sub := by
  cases h with
  | add | sub => simp
  | _ => simp [State.declare] at changed

theorem exec_writes_v {i : Instr} {s t : State} (h : ExecCase s i t) (changed : t.v ≠ s.v) : i = .add ∨ i = .sub := by
  cases h with
  | add | sub => simp
  | _ => simp [State.declare] at changed

theorem exec_writes_pc {i : Instr} {s t : State} (h : ExecCase s i t) (changed : t.pc ≠ s.pc) :
    (∃ n, i = .jmp n) ∨ ∃ n, i = .jzs n := by
  cases h with
  | jmp | jzsTaken => simp
  | _ => simp [State.declare, State.storeResult] at changed

theorem exec_writes_word {i : Instr} {s t : State} (h : ExecCase s i t) (a : Nat)
    (changed : Memory.read t.mem a ≠ Memory.read s.mem a) : ∃ n, i = .str n ∧ (a : Int) = s.lookup n := by
  cases h with
  | str n _ nonneg =>
    rw [read_write_toNat nonneg, ne_eq, ite_eq_right_iff, Classical.not_imp] at changed
    exact ⟨n, rfl, changed.1⟩
  | _ => simp [State.declare, State.storeResult] at changed

theorem exec_writes_binding {i : Instr} {s t : State} (h : ExecCase s i t) (m : SymName)
    (changed : t.binding? m ≠ s.binding? m) : i = .dec m := by
  cases h with
  | dec n =>
    rw [binding?_declare, ne_eq, ite_eq_right_iff, Classical.not_imp] at changed
    rw [changed.1]
  | _ => simp [State.binding?, State.storeResult] at changed

theorem exec_keeps_nfa {i : Instr} {s t : State} (h : ExecCase s i t) (other : ∀ n, i ≠ .dec n) : t.nfa = s.nfa := by
  cases h with
  | dec n => exact absurd rfl (other n)
  | hlt => rw [hlt_outputs_eq_haltedBy]; rfl
  | _ => rfl

theorem exec_writes_nfa {i : Instr} {s t : State} (h : ExecCase s i t) (changed : t.nfa ≠ s.nfa) :
    ∃ n, i = .dec n := by
  by_contra other
  exact changed (exec_keeps_nfa h (not_exists.mp other))

theorem exec_writes_mode {i : Instr} {s t : State} (h : ExecCase s i t) (changed : t.mode ≠ s.mode) :
    t.mode = .haltedHLT ∧ i = .hlt ∨ t.mode = .faulted := by
  cases h with
  | memFault | widthFault => exact .inr rfl
  | hlt => exact .inl ⟨rfl, rfl⟩
  | _ => simp [State.declare, State.storeResult] at changed

/-- Settles O29: one clause for each piece, and what belongs to the controller. -/
theorem writersOfEachPiece : Obligations.WritersOfEachPiece := by
  intro i s t answered
  have h := exec_cases answered
  have kept := exec_keeps_controller h
  exact ⟨exec_writes_acc h, exec_writes_dr h, exec_writes_z h, exec_writes_v h, exec_writes_pc h, exec_writes_word h,
    exec_writes_binding h, exec_writes_nfa h, exec_writes_mode h, kept.prog, kept.wm, kept.wordModel, kept.programIn,
    kept.commandIn, kept.confirmIn⟩

/-- Settles O28: only the two arithmetic instructions write Z or V. -/
theorem onlyArithmeticWritesFlags : Obligations.OnlyArithmeticWritesFlags := by
  intro i s t answered notAdd notSub
  have h := exec_cases answered
  have neither : ¬ (i = .add ∨ i = .sub) := not_or.mpr ⟨notAdd, notSub⟩
  exact ⟨not_not.mp (mt (exec_writes_z h) neither), not_not.mp (mt (exec_writes_v h) neither)⟩

/-! ### The range of the registers -/

theorem exec_lda_in_range {n : SymName} {s t : State} (memory : s.MemoryInv) (h : ExecCase s (.lda n) t)
    (loaded : t.mode ≠ .faulted) : inRange t.acc = true := by
  cases h with
  | memFault | widthFault => exact absurd rfl loaded
  | lda => exact inRange_read memory _

/-- From registers in range, a register out of range comes from arithmetic or a literal only. -/
theorem exec_out_of_range {i : Instr} {s t : State} (memory : s.MemoryInv) (acc : inRange s.acc = true)
    (dr : inRange s.dr = true) (h : ExecCase s i t) :
    inRange t.dr = true ∧ (inRange t.acc = false → i = .add ∨ i = .sub ∨ ∃ n, i = .ldi n) := by
  cases h with
  | add | sub | ldi => exact ⟨dr, fun _ => by simp⟩
  | lda => exact ⟨dr, fun out => by simp [inRange_read memory] at out⟩
  | xch => exact ⟨acc, fun out => by simp [dr] at out⟩
  | _ => simp [State.declare, acc, dr]

/-- Settles O31: a loaded word is in range by the invariant. -/
theorem outOfRangeValuesComeFromArithmetic : Obligations.OutOfRangeValuesComeFromArithmetic := by
  rintro i s t ⟨memory, -⟩ answered
  have h := exec_cases answered
  refine ⟨?_, fun acc dr => exec_out_of_range memory acc dr h⟩
  rintro ⟨n, rfl⟩
  exact exec_lda_in_range memory h

/-! ### What no instruction reads -/

/-- The state with another V and other outputs. -/
def withObserved (b : Bool) (o : List Output) (s : State) : State := { s with v := b, out := o }

/-- Whatever V and the outputs were, the instruction does the same, leaves V and adds the same conditions. -/
def ReadsNoObserved (i : Instr) (s : State) : Prop :=
  ∃ t new, (∀ x ∈ new, ∃ c, x = Output.cond c) ∧
    ∀ b o, exec i (withObserved b o s) = .next (withObserved b (o ++ new) t)

theorem ReadsNoObserved.of_silent {i : Instr} {s : State} (t : State)
    (answers : ∀ b o, exec i (withObserved b o s) = .next (withObserved b o t)) : ReadsNoObserved i s :=
  ⟨t, [], nofun, fun b o => by rw [List.append_nil, answers]⟩

theorem ReadsNoObserved.of_report {i : Instr} {s : State} (c : Condition)
    (answers : ∀ b o, exec i (withObserved b o s) = .next ((withObserved b o s).raise c)) : ReadsNoObserved i s :=
  ⟨s, [.cond c], by simp, answers⟩

theorem ReadsNoObserved.of_fault {i : Instr} {s : State} (f : Fault)
    (answers : ∀ b o, exec i (withObserved b o s) = .next (faultedBy f (withObserved b o s))) : ReadsNoObserved i s :=
  ⟨s.enter .faulted, [.cond (.fault f)], by simp, answers⟩

theorem exec_dec_of_not_fits {s : State} (unfit : s.wordModel.fits (s.nfa + 1) = false) (n : SymName) :
    exec (.dec n) s = .next (faultedBy (.width (s.nfa + 1)) s) :=
  decFaultsOnWideCounter n s unfit

/-- Every instruction but HLT, which dumps V, and the arithmetic that writes V. -/
theorem exec_readsNoObserved {i : Instr} {s : State} (notHlt : i ≠ .hlt) (silent : ¬ WritesV i s) :
    ReadsNoObserved i s := by
  cases i with
  | hlt => exact absurd rfl notHlt
  | dec n =>
    cases fit : s.wordModel.fits (s.nfa + 1) with
    | true => exact .of_silent (s.declare n) fun b o => exec_dec_of_fits (s := withObserved b o s) fit n
    | false => exact .of_fault (.width (s.nfa + 1)) fun b o => exec_dec_of_not_fits (s := withObserved b o s) fit n
  | add =>
    have unfit : s.wordModel.fits (s.acc + s.dr) = false := by simpa [WritesV] using silent
    exact .of_fault (.width (s.acc + s.dr)) fun b o => exec_add_of_not_fits (s := withObserved b o s) unfit
  | sub =>
    have unfit : s.wordModel.fits (s.acc - s.dr) = false := by simpa [WritesV] using silent
    exact .of_fault (.width (s.acc - s.dr)) fun b o => exec_sub_of_not_fits (s := withObserved b o s) unfit
  | lda n =>
    by_cases bounds : 0 ≤ s.lookup n ∧ s.lookup n ≤ 255
    · exact .of_silent { s with acc := Memory.read s.mem (s.lookup n).toNat } fun b o =>
        exec_lda_of_address_in_bounds (s := withObserved b o s) bounds
    · exact .of_fault (.memBounds (s.lookup n)) fun b o =>
        exec_lda_of_address_out_of_bounds (s := withObserved b o s) bounds
  | ldi n => exact .of_silent { s with acc := n } fun b o => exec_ldi n (withObserved b o s)
  | str n =>
    by_cases range : -32768 ≤ s.acc ∧ s.acc ≤ 32767
    · by_cases bounds : 0 ≤ s.lookup n ∧ s.lookup n ≤ 255
      · exact .of_silent (storedAt (s.lookup n) s) fun b o =>
          exec_str_eq_storedAt (s := withObserved b o s) range bounds
      · exact .of_fault (.memBounds (s.lookup n)) fun b o =>
          exec_str_of_address_out_of_bounds (s := withObserved b o s) range bounds
    · exact .of_report (.storeOutOfRange s.acc) fun b o =>
        exec_str_of_acc_out_of_range (s := withObserved b o s) range n
  | xch => exact .of_silent { s with acc := s.dr, dr := s.acc } fun b o => exec_xch (withObserved b o s)
  | jmp n =>
    by_cases range : 0 ≤ n ∧ n ≤ 127
    · exact .of_silent (s.setPc (n - 1)) fun b o => exec_jmp_of_in_range range (withObserved b o s)
    · exact .of_report (.jumpOutOfRange n) fun b o => exec_jmp_of_out_of_range range (withObserved b o s)
  | jzs n =>
    cases set : s.z with
    | false => exact .of_silent s fun b o => exec_jzs_of_clear (s := withObserved b o s) set n
    | true =>
      cases fit : s.wordModel.fits (n - 1) with
      | true => exact .of_silent (s.setPc (n - 1)) fun b o => exec_jzs_of_set (s := withObserved b o s) set fit
      | false => exact .of_fault (.width (n - 1)) fun b o => exec_jzs_of_not_fits (s := withObserved b o s) set fit

/-- Arithmetic that writes V overwrites whatever was there, and emits nothing. -/
theorem exec_of_writesV {i : Instr} {s : State} (writes : WritesV i s) :
    ∃ t : State, ∀ b o, exec i (withObserved b o s) = .next { t with out := o } := by
  obtain ⟨rfl, fit⟩ | ⟨rfl, fit⟩ := writes
  · exact ⟨s.storeResult (s.acc + s.dr), fun b o => exec_add_of_fits (s := withObserved b o s) fit⟩
  · exact ⟨s.storeResult (s.acc - s.dr), fun b o => exec_sub_of_fits (s := withObserved b o s) fit⟩

theorem map_showingV_of_conds (b : Bool) {new : List Output} (conds : ∀ x ∈ new, ∃ c, x = Output.cond c) :
    new.map (showingV b) = new := by
  rw [List.map_congr_left (g := id), List.map_id]
  intro x mem
  obtain ⟨c, rfl⟩ := conds x mem
  rfl

/-- Settles O30: HLT shows V, arithmetic overwrites it, and every other instruction leaves it unread. -/
theorem overflowFlagIsNeverRead : Obligations.OverflowFlagIsNeverRead := by
  intro i s t b answered
  change exec i (withObserved s.v s.out s) = .next t at answered
  by_cases hlt : i = .hlt
  · subst hlt
    obtain rfl := Host.Outcome.next.inj ((exec_hlt _).symm.trans answered)
    exact ⟨_, _, exec_hlt _, rfl, fun writes => by simp [WritesV] at writes, fun _ => ⟨rfl, rfl⟩, rfl, rfl⟩
  by_cases writes : WritesV i s
  · obtain ⟨u, answers⟩ := exec_of_writesV writes
    obtain rfl := Host.Outcome.next.inj ((answers _ _).symm.trans answered)
    exact ⟨_, [], answers b s.out, rfl, fun _ => rfl, fun silent => absurd writes silent, by simp, by simp⟩
  · obtain ⟨u, new, conds, answers⟩ := exec_readsNoObserved hlt writes
    obtain rfl := Host.Outcome.next.inj ((answers _ _).symm.trans answered)
    refine ⟨_, new, answers b s.out, rfl, fun written => absurd written writes, fun _ => ⟨rfl, rfl⟩, rfl, ?_⟩
    rw [map_showingV_of_conds b conds]
    rfl

end Sys2Proof.Proofs
end

section
/-!
PROOFS. What every step keeps (10_state.md sections 5 to 7): the invariant, first its part on data and then its part
on the controller.
-/
open Sys2Proof Sys2Proof.Machine Sys2Proof.Claims

namespace Sys2Proof.Proofs

/-! ### The part of the invariant on data -/

/-- The memory, the names and the widths: what the invariant says of the pieces that instructions write. -/
def DataInv (s : State) : Prop := s.MemoryInv ∧ s.SymbolInv ∧ s.WidthInv

theorem inv_iff (s : State) : s.Inv ↔ DataInv s ∧ s.ControlInv := by
  simp only [State.Inv, DataInv]; tauto

/-- The part on data reads only the pieces that instructions write, and neither the flags nor the outputs. -/
theorem dataInv_congr {s t : State} (data : DataInv s) (acc : t.acc = s.acc) (dr : t.dr = s.dr) (pc : t.pc = s.pc)
    (mem : t.mem = s.mem) (sym : t.sym = s.sym) (nfa : t.nfa = s.nfa) (wordModel : t.wordModel = s.wordModel) :
    DataInv t := by
  unfold DataInv State.MemoryInv State.SymbolInv State.WidthInv at *
  rw [acc, dr, pc, mem, sym, nfa, wordModel]
  exact data

theorem dataInv_emit {s : State} (data : DataInv s) (o : Output) : DataInv (s.emit o) :=
  dataInv_congr data rfl rfl rfl rfl rfl rfl rfl

theorem dataInv_enter {s : State} (data : DataInv s) (m : Mode) : DataInv (s.enter m) :=
  dataInv_congr data rfl rfl rfl rfl rfl rfl rfl

theorem dataInv_takeFault {s : State} (data : DataInv s) (f : Fault) : DataInv (s.takeFault f) :=
  dataInv_enter (dataInv_emit data _) _

theorem dataInv_setAcc {s : State} (data : DataInv s) {x : Int} (fit : s.wordModel.fits x = true) :
    DataInv { s with acc := x } := by
  obtain ⟨memory, symbols, legal, -, dr, pc, nfa⟩ := data
  exact ⟨memory, symbols, legal, fit, dr, pc, nfa⟩

theorem dataInv_storeResult {s : State} (data : DataInv s) {r : Int} (fit : s.wordModel.fits r = true) :
    DataInv (s.storeResult r) :=
  dataInv_setAcc data fit

theorem dataInv_setPc {s : State} (data : DataInv s) {p : Int} (fit : s.wordModel.fits p = true) :
    DataInv (s.setPc p) := by
  obtain ⟨memory, symbols, legal, acc, dr, -, nfa⟩ := data
  exact ⟨memory, symbols, legal, acc, dr, fit, nfa⟩

theorem dataInv_exchange {s : State} (data : DataInv s) : DataInv { s with acc := s.dr, dr := s.acc } := by
  obtain ⟨memory, symbols, legal, acc, dr, pc, nfa⟩ := data
  exact ⟨memory, symbols, legal, dr, acc, pc, nfa⟩

/-- The word that DEC hands out is one more written by the names and may be written from then on (rule R100). -/
theorem dataInv_declare {s : State} (data : DataInv s) {n : SymName} (fit : s.wordModel.fits (s.nfa + 1) = true) :
    DataInv (s.declare n) := by
  obtain ⟨⟨canonical, words⟩, ⟨sorted, base, bindings⟩, legal, acc, dr, pc, -⟩ := data
  have grown : (s.declare n).nfa = s.nfa + 1 := rfl
  refine ⟨⟨canonical, fun e listed => ?_⟩, ⟨SymTable.bind_wf sorted n s.nfa, by omega, fun b listed => ?_⟩,
    legal, acc, dr, pc, fit⟩
  · obtain ⟨range, zero | ⟨lower, upper⟩⟩ := words e listed
    · exact ⟨range, .inl zero⟩
    · exact ⟨range, .inr ⟨lower, by omega⟩⟩
  · obtain rfl | old := State.mem_bind listed
    · exact ⟨base, by omega⟩
    · obtain ⟨lower, upper⟩ := bindings b old
      exact ⟨lower, by omega⟩

/-- A store of a value in range writes word 0 or a word that DEC has handed out (rules R39, R57). -/
theorem dataInv_store {s : State} (data : DataInv s) {n : SymName} (range : inRange s.acc = true)
    (below : s.lookup n < 256) :
    DataInv { s with mem := Memory.write s.mem (s.lookup n).toNat s.acc } := by
  obtain ⟨⟨canonical, words⟩, symbols, widths⟩ := data
  have target := lookup_cases symbols n
  have inside : (s.lookup n).toNat < Config.memSize := by
    have : Config.memSize = 256 := rfl
    omega
  refine ⟨⟨Memory.write_wf canonical inside s.acc, fun e listed => ?_⟩, symbols, widths⟩
  obtain old | ⟨rfl, -⟩ := Memory.mem_write listed
  · exact words e old
  · have base : Config.dataBase = 128 := rfl
    refine ⟨range, target.imp (fun zero => ?_) (fun handedOut => ?_)⟩ <;> dsimp only <;> omega

theorem exec_keeps_data {i : Instr} {s t : State} (data : DataInv s) (literal : i.fitsIn s.wordModel = true)
    (h : ExecCase s i t) : DataInv t := by
  have ⟨memory, _, legal, _⟩ := data
  cases h with
  | dec n fit => exact dataInv_declare data fit
  | add fit => exact dataInv_storeResult data fit
  | sub fit => exact dataInv_storeResult data fit
  | lda n => exact dataInv_setAcc data (fits_of_inRange legal (inRange_read memory _))
  | ldi n => exact dataInv_setAcc data literal
  | str n range nonneg below => exact dataInv_store data range below
  | xch => exact dataInv_exchange data
  | jmp n nonneg upper => exact dataInv_setPc data (WordModel.fits_of_legal legal (by omega) (by omega))
  | jzsTaken n set fit => exact dataInv_setPc data fit
  | memFault | widthFault => exact dataInv_takeFault data _
  | strRefused | jmpRefused => exact dataInv_emit data _
  | jzsNotTaken => exact data
  | hlt => exact dataInv_enter (dataInv_emit (dataInv_emit (dataInv_emit data _) _) _) _

theorem dispatch_keeps_data {line : Line} {s t : State} (data : DataInv s) (h : DispatchCase s line t) :
    DataInv t := by
  cases h with
  | performed i t decoded h =>
    obtain ⟨-, literal⟩ := decodedInstructionIsWellFormed s.wordModel line i decoded
    exact exec_keeps_data data literal h
  | unknown | malformed => exact dataInv_emit data _
  | tooWide n => exact dataInv_takeFault data _

theorem dataInv_load {s : State} (data : DataInv s) (lines : List Line) : DataInv (s.load lines) := by
  rw [State.load_eq]
  exact dataInv_congr data rfl rfl rfl rfl rfl rfl rfl

theorem dataInv_perform {s : State} (data : DataInv s) (c : Command) : DataInv (perform c s) := by
  cases c <;> exact dataInv_congr data rfl rfl rfl rfl rfl rfl rfl

theorem dataInv_countDispatch {s : State} (data : DataInv s) : DataInv s.countDispatch := by
  rw [State.countDispatch_eq]
  split_ifs <;> exact dataInv_congr data rfl rfl rfl rfl rfl rfl rfl

theorem dataInv_traced {t : State} (data : DataInv t) (fit : t.wordModel.fits (t.pc + 1) = true) (line : Line) :
    DataInv (t.traced line) :=
  dataInv_setPc (dataInv_emit data _) fit

theorem step_keeps_data {s t : State} (data : DataInv s) (h : StepCase s t) : DataInv t := by
  cases h with
  | stays => exact data
  | bounds | completed => exact dataInv_enter (dataInv_emit data _) _
  | confirmed | declined => exact dataInv_congr data rfl rfl rfl rfl rfl rfl rfl
  | load lines => exact dataInv_load data lines
  | command c rest =>
    exact dataInv_perform (s := { s with commandIn := rest }) (dataInv_congr data rfl rfl rfl rfl rfl rfl rfl) c
  | ended line t _ _ h => exact dispatch_keeps_data data h
  | advanceFault line t _ _ h => exact dataInv_takeFault (dataInv_emit (dispatch_keeps_data data h) _) _
  | stepped line t _ _ h _ fit =>
    exact dataInv_enter (dataInv_emit (dataInv_traced (dispatch_keeps_data data h) fit line) _) _
  | ran line t _ _ _ h _ fit => exact dataInv_countDispatch (dataInv_traced (dispatch_keeps_data data h) fit line)

/-! ### The part of the invariant on the controller -/

/-- A mode other than Idle is reached only after the load (rule R251). -/
theorem programIn_of_not_idle {s : State} (control : s.ControlInv) (busy : s.mode ≠ .idle) : s.programIn = .taken := by
  obtain ⟨-, -, -, -, beforeLoad⟩ := control
  by_contra waiting
  exact busy (beforeLoad waiting).1

/-- After the load the program and the count are all that the invariant says of a mode that is no part of a run. -/
theorem controlInv_of_not_run {s t : State} (control : s.ControlInv) (prog : t.prog = s.prog) (wm : t.wm = s.wm)
    (loaded : t.programIn = .taken) (notRunning : t.mode ≠ .running) (notPaused : t.mode ≠ .awaitConfirm) :
    t.ControlInv := by
  obtain ⟨length, count, -, -, -⟩ := control
  exact ⟨prog ▸ length, wm ▸ count, fun h => absurd h notRunning, fun h => absurd h notPaused,
    fun h => absurd loaded h⟩

theorem controlInv_load {s : State} (control : s.ControlInv) (lines : List Line) (waiting : s.programIn ≠ .taken) :
    (s.load lines).ControlInv := by
  obtain ⟨-, count, -, -, beforeLoad⟩ := control
  obtain ⟨idle, -⟩ := beforeLoad waiting
  rw [State.load_eq]
  refine ⟨List.length_take_le 128 lines, count, ?_, ?_, nofun⟩ <;> simp [idle]

theorem controlInv_perform {s : State} (control : s.ControlInv) (mode : s.mode = .idle ∨ s.mode = .haltedBounds)
    (loaded : s.programIn = .taken) (c : Command) (rest : List Command) :
    (perform c { s with commandIn := rest }).ControlInv := by
  have notRunning : s.mode ≠ .running := by rintro h; simp [h] at mode
  have notPaused : s.mode ≠ .awaitConfirm := by rintro h; simp [h] at mode
  cases c with
  | run =>
    obtain ⟨length, -⟩ := control
    exact ⟨length, Nat.zero_le _, fun _ => (by decide : 0 < 1000), nofun, fun h => absurd loaded h⟩
  | step => exact controlInv_of_not_run control rfl rfl loaded nofun nofun
  | quit => exact controlInv_of_not_run control rfl rfl loaded nofun nofun
  | other => exact controlInv_of_not_run control rfl rfl loaded notRunning notPaused

/-- The count of a run reaches WATERMARK exactly with the pause (rules R187, R188). -/
theorem controlInv_countDispatch {s : State} (length : s.prog.length ≤ 128) (below : s.wm < 1000)
    (running : s.mode = .running) (loaded : s.programIn = .taken) : s.countDispatch.ControlInv := by
  rw [State.countDispatch_eq]
  split_ifs with pause
  · exact ⟨length, Nat.le_refl _, nofun, fun _ => rfl, fun h => absurd loaded h⟩
  · have still : s.wm + 1 < Config.watermark := by
      have : Config.watermark = 1000 := rfl
      omega
    refine ⟨length, still.le, fun _ => still, fun h => ?_, fun h => absurd loaded h⟩
    simp [running] at h

theorem not_absorbing_of_dispatching {s : State} (mode : s.mode = .stepping ∨ s.mode = .running) :
    s.mode.absorbing = false := by
  obtain mode | mode := mode <;> rw [mode] <;> rfl

/-- A dispatch that ended the session leaves a mode that is absorbing, and nothing of the controller's written. -/
theorem controlInv_of_ended {s t : State} {line : Line} (control : s.ControlInv) (loaded : s.programIn = .taken)
    (h : DispatchCase s line t) (ended : t.mode.absorbing = true) : t.ControlInv := by
  have kept := dispatch_keeps_controller h
  exact controlInv_of_not_run control kept.prog kept.wm (kept.programIn.trans loaded)
    (fun running => by rw [running] at ended; cases ended) (fun paused => by rw [paused] at ended; cases ended)

theorem step_keeps_control {s t : State} (control : s.ControlInv) (h : StepCase s t) : t.ControlInv := by
  have loaded := programIn_of_not_idle control
  have loadedOf (mode : s.mode = .stepping ∨ s.mode = .running) : s.programIn = .taken :=
    loaded (fun idle => by simp [idle] at mode)
  cases h with
  | stays => exact control
  | load lines _ supplied => exact controlInv_load control lines (by simp [supplied])
  | command c rest mode loaded => exact controlInv_perform control mode loaded c rest
  | bounds mode => exact controlInv_of_not_run control rfl rfl (loadedOf mode) nofun nofun
  | completed mode => exact controlInv_of_not_run control rfl rfl (loadedOf (.inr mode)) nofun nofun
  | ended line t mode _ h ended => exact controlInv_of_ended control (loadedOf mode) h ended
  | advanceFault line t mode _ h =>
    have kept := dispatch_keeps_controller h
    exact controlInv_of_not_run control kept.prog kept.wm (kept.programIn.trans (loadedOf mode)) nofun nofun
  | stepped line t mode _ h =>
    have kept := dispatch_keeps_controller h
    exact controlInv_of_not_run control kept.prog kept.wm (kept.programIn.trans (loadedOf (.inl mode))) nofun nofun
  | ran line t mode _ _ h returned =>
    have kept := dispatch_keeps_controller h
    obtain ⟨length, -, below, -, -⟩ := control
    exact controlInv_countDispatch (s := t.traced line) (kept.prog ▸ length) (kept.wm ▸ below mode)
      ((mode_of_dispatch_returned h returned).trans mode) (kept.programIn.trans (loadedOf (.inr mode)))
  | confirmed rest mode =>
    obtain ⟨length, -⟩ := control
    exact ⟨length, Nat.zero_le _, fun _ => (by decide : 0 < 1000), nofun,
      fun h => absurd (loaded (by simp [mode])) h⟩
  | declined rest mode => exact controlInv_of_not_run control rfl rfl (loaded (by simp [mode])) nofun nofun

/-- Settles O53: the part on data is kept by every instruction, the part on the controller by every transition. -/
theorem stepKeepsInvariant : Obligations.StepKeepsInvariant := by
  intro s t inv stepped
  obtain ⟨data, control⟩ := (inv_iff s).mp inv
  have h := step_cases stepped
  exact (inv_iff t).mpr ⟨step_keeps_data data h, step_keeps_control control h⟩

end Sys2Proof.Proofs
end

section
/-!
PROOFS. NFA and the declarations executed (10_state.md section 7): what each operation adds to the count of trace
records of DEC, and that every step moves both together.
-/
open Sys2Proof Sys2Proof.Machine Sys2Proof.Claims

namespace Sys2Proof.Proofs

/-! ### The count of declarations -/

/-- A trace record counts as a declaration by its line alone, whatever the word model it was decoded in: DEC has no
literal. -/
theorem isDecTrace_trace_iff (wm : WordModel) (r : TraceRecord) :
    (Output.trace r).isDecTrace = true ↔ ∃ n, decodeIn wm r.line = .ok (.dec n) := by
  have anyModel : (∃ n, decode r.line = .ok (.dec n)) ↔ ∃ n, decodeIn wm r.line = .ok (.dec n) :=
    exists_congr fun _ => ⟨fun h => decodeIn_ok_of_no_literal h rfl wm, fun h => decodeIn_ok_of_no_literal h rfl _⟩
  rw [← anyModel]
  simp only [Output.isDecTrace]
  split
  · rename_i n decoded
    simp [decoded]
  · rename_i other
    simpa using other

theorem isDecTrace_traceRecord_iff (wm : WordModel) (line : Line) (t : State) :
    (Output.trace (t.traceRecord line)).isDecTrace = true ↔ ∃ n, decodeIn wm line = .ok (.dec n) :=
  isDecTrace_trace_iff wm _

theorem declarations_of_emitted {s t : State} {new : List Output} (out : t.out = s.out ++ new)
    (noTrace : new.countP Output.isDecTrace = 0) : t.declarations = s.declarations := by
  rw [State.declarations, out, List.countP_append, noTrace]
  rfl

theorem declarations_emit (o : Output) (s : State) :
    (s.emit o).declarations = s.declarations + if o.isDecTrace then 1 else 0 := by
  simp only [State.declarations, State.emit_out, List.countP_append, List.countP_singleton]

@[simp] theorem declarations_emit_dump (d : Dump) (s : State) : (s.emit (.dump d)).declarations = s.declarations :=
  declarations_emit _ s

@[simp] theorem declarations_emit_cond (c : Condition) (s : State) :
    (s.emit (.cond c)).declarations = s.declarations :=
  declarations_emit _ s

@[simp] theorem declarations_setPc (p : Int) (s : State) : (s.setPc p).declarations = s.declarations := rfl

@[simp] theorem declarations_enter (m : Mode) (s : State) : (s.enter m).declarations = s.declarations := rfl

@[simp] theorem declarations_load (lines : List Line) (s : State) :
    (s.load lines).declarations = s.declarations := by
  rw [State.load_eq]
  refine declarations_of_emitted rfl ?_
  split_ifs <;> rfl

@[simp] theorem declarations_perform (c : Command) (s : State) : (perform c s).declarations = s.declarations := by
  cases c with
  | step | run => rfl
  | quit => simp [perform, State.quitSession]
  | other => simp [perform]

@[simp] theorem declarations_countDispatch (s : State) : s.countDispatch.declarations = s.declarations := by
  rw [State.countDispatch_eq]
  split_ifs
  · exact declarations_of_emitted rfl rfl
  · rfl

/-- No dispatch counts a declaration by itself: the trace record comes after it. -/
theorem declarations_dispatch {line : Line} {s t : State} (h : DispatchEnd s line t) :
    t.declarations = s.declarations := by
  cases h with
  | returned _ _ out =>
    obtain out | ⟨c, -, out⟩ := out
    · exact declarations_of_emitted (new := []) (by simpa using out) rfl
    · exact declarations_of_emitted out rfl
  | faulted | halted => exact declarations_of_emitted rfl rfl

theorem exec_dec_nfa {n : SymName} {s t : State} (h : ExecCase s (.dec n) t) (returned : t.mode.absorbing = false) :
    t.nfa = s.nfa + 1 := by
  cases h with
  | memFault | widthFault => cases returned
  | dec => rfl

/-- The counter moves exactly with the dispatches whose trace record counts as a declaration. -/
theorem dispatch_nfa {line : Line} {s t : State} (h : DispatchCase s line t) (returned : t.mode.absorbing = false) :
    t.nfa = s.nfa + if (Output.trace (t.traceRecord line)).isDecTrace then 1 else 0 := by
  split_ifs with declares <;> rw [isDecTrace_traceRecord_iff s.wordModel] at declares
  · obtain ⟨n, decodes⟩ := declares
    cases h with
    | performed i t decoded h =>
      obtain rfl : i = .dec n := Decoded.ok.inj (decoded.symm.trans decodes)
      exact exec_dec_nfa h returned
    | unknown decoded | malformed decoded | tooWide _ decoded => rw [decodes] at decoded; cases decoded
  · rw [add_zero]
    cases h with
    | performed i t decoded h => exact exec_keeps_nfa h fun n same => declares ⟨n, same ▸ decoded⟩
    | unknown | malformed | tooWide => rfl

theorem dispatch_ended_nfa {line : Line} {s t : State} (h : DispatchCase s line t)
    (begun : s.mode.absorbing = false) (ended : t.mode.absorbing = true) : t.nfa = s.nfa := by
  obtain ⟨f, rfl, -⟩ | ⟨rfl, -⟩ := dispatch_ended h begun ended <;> rfl

/-- What a returning dispatch and its trace record keep: NFA minus the count of declarations. -/
theorem traced_nfa {line : Line} {s t : State} (h : DispatchCase s line t) (returned : t.mode.absorbing = false) :
    (t.emitTrace line).nfa - (t.emitTrace line).declarations = s.nfa - s.declarations := by
  have counter := dispatch_nfa h returned
  simp only [State.emitTrace_eq_emit, State.emit_nfa, declarations_emit, declarations_dispatch (dispatch_ends h)]
  split_ifs at counter ⊢ <;> push_cast <;> omega

@[simp] theorem nfa_load (lines : List Line) (s : State) : (s.load lines).nfa = s.nfa := by rw [State.load_eq]

@[simp] theorem nfa_perform (c : Command) (s : State) : (perform c s).nfa = s.nfa := by cases c <;> rfl

@[simp] theorem nfa_countDispatch (s : State) : s.countDispatch.nfa = s.nfa := by
  rw [State.countDispatch_eq]; split_ifs <;> rfl

/-- Every step keeps the difference of NFA and the count of declarations. -/
theorem step_keeps_nfa_sub_declarations {s t : State} (h : StepCase s t) :
    t.nfa - t.declarations = s.nfa - s.declarations := by
  cases h with
  | stays => rfl
  | load lines => simp
  | command c rest =>
    rw [nfa_perform, declarations_perform]
    rfl
  | bounds => simp [State.boundsViolation]
  | completed => simp
  | ended line t mode _ h ended =>
    rw [dispatch_ended_nfa h (not_absorbing_of_dispatching mode) ended, declarations_dispatch (dispatch_ends h)]
  | advanceFault line t _ _ h returned =>
    rw [← traced_nfa h returned]; simp
  | stepped line t _ _ h returned =>
    rw [← traced_nfa h returned]; simp [State.traced]
  | ran line t _ _ _ h returned =>
    rw [← traced_nfa h returned]; simp [State.traced]
  | confirmed => rfl
  | declined => simp [State.declarations, Output.isDecTrace]

/-- Settles O54: the difference of the two counts is kept, so it stays 128. -/
theorem nfaCountsDeclarations : Obligations.NfaCountsDeclarations := by
  intro s t counted stepped
  have kept := step_keeps_nfa_sub_declarations (step_cases stepped)
  omega

end Sys2Proof.Proofs
end

section
/-!
PROOFS. The step of a dispatching mode (48_controller.md section 2): the line that it dispatches, what it adds to a
dispatch that returns, and where the jumps land.
-/
open Sys2Proof Sys2Proof.Machine Sys2Proof.Claims

namespace Sys2Proof.Proofs

/-! ### What a mode adds after a dispatch -/

theorem afterAdvance_stepping (t : State) :
    afterAdvance .stepping t = { t with mode := .idle, out := t.out ++ [.dump t.dump] } := if_pos rfl

theorem afterAdvance_running (t : State) : afterAdvance .running t = t.countDispatch :=
  (if_neg nofun).trans (State.countDispatch_eq t).symm

/-- What a mode adds writes none of the pieces that instructions write. -/
theorem afterAdvance_keeps (m : Mode) (t : State) :
    (afterAdvance m t).pc = t.pc ∧ (afterAdvance m t).acc = t.acc ∧ (afterAdvance m t).dr = t.dr ∧
      (afterAdvance m t).z = t.z ∧ (afterAdvance m t).v = t.v ∧ (afterAdvance m t).mem = t.mem ∧
      (afterAdvance m t).sym = t.sym := by
  unfold afterAdvance
  split_ifs <;> exact ⟨rfl, rfl, rfl, rfl, rfl, rfl, rfl⟩

/-! ### The step as a dispatch -/

theorem fetch?_of_dispatches {line : Line} {s : State} (dispatches : Dispatches line s) : s.fetch? = some line := by
  obtain ⟨nonneg, present, -⟩ := dispatches
  exact (State.fetch?_eq_some_iff s line).mpr ⟨nonneg, present⟩

theorem mode_of_dispatches {line : Line} {s : State} (dispatches : Dispatches line s) :
    s.mode = .stepping ∨ s.mode = .running := by
  obtain ⟨-, -, mode⟩ := dispatches
  exact mode.imp_right And.left

theorem not_absorbing_of_dispatches {line : Line} {s : State} (dispatches : Dispatches line s) :
    s.mode.absorbing = false :=
  not_absorbing_of_dispatching (mode_of_dispatches dispatches)

theorem outOfRunRange_of_inside {s : State} (nonneg : 0 ≤ s.pc) (below : s.pc < 128) : s.outOfRunRange = false := by
  have inside : ¬ (s.pc < 0 ∨ 128 ≤ s.pc) := by omega
  simpa using mt (State.outOfRunRange_iff s).mp inside

/-- The one step of both dispatching modes (rules R184, R187). -/
theorem step_of_dispatches {line : Line} {s : State} (dispatches : Dispatches line s) :
    step s = onReturn (dispatchAndAdvance line s) (afterAdvance s.mode) := by
  have fetched := fetch?_of_dispatches dispatches
  obtain ⟨nonneg, -, stepping | ⟨running, below⟩⟩ := dispatches
  · rw [step_stepping stepping, stepOnce_of_fetch fetched, stepping, funext afterAdvance_stepping]
    rfl
  · rw [step_running running, runOnce_of_fetch (outOfRunRange_of_inside nonneg below) fetched, running,
      funext afterAdvance_running]

theorem dispatchAndAdvance_of_ended {line : Line} {s t : State} (dispatched : dispatchLine line s = .next t)
    (ended : t.mode.absorbing = true) : dispatchAndAdvance line s = .next t := by
  rw [dispatchAndAdvance, dispatched, onReturn_next, if_pos ended]

theorem dispatchAndAdvance_of_fits {line : Line} {s t : State} (dispatched : dispatchLine line s = .next t)
    (returned : t.mode.absorbing = false) (fit : t.wordModel.fits (t.pc + 1) = true) :
    dispatchAndAdvance line s = .next (tracedAndAdvanced line t) := by
  have advanced : (t.emitTrace line).advance = tracedAndAdvanced line t :=
    State.checkW_of_fits (s := t.emitTrace line) fit _
  rw [dispatchAndAdvance, dispatched, onReturn_next, returned, advanced]
  rfl

theorem step_of_ended {line : Line} {s t : State} (dispatches : Dispatches line s)
    (dispatched : dispatchLine line s = .next t) (ended : t.mode.absorbing = true) : step s = .next t := by
  rw [step_of_dispatches dispatches, dispatchAndAdvance_of_ended dispatched ended, onReturn_next, if_pos ended]

theorem step_of_returned {line : Line} {s t : State} (dispatches : Dispatches line s)
    (dispatched : dispatchLine line s = .next t) (returned : t.mode.absorbing = false)
    (fit : t.wordModel.fits (t.pc + 1) = true) :
    step s = .next (afterAdvance s.mode (tracedAndAdvanced line t)) := by
  have still : ¬ (tracedAndAdvanced line t).mode.absorbing = true := by
    show ¬ t.mode.absorbing = true
    simp [returned]
  rw [step_of_dispatches dispatches, dispatchAndAdvance_of_fits dispatched returned fit, onReturn_next, if_neg still]

theorem dispatchLine_of_ok {line : Line} {s : State} {i : Instr} (decoded : decodeIn s.wordModel line = .ok i) :
    dispatchLine line s = exec i s := by
  simp only [dispatchLine, decoded]

theorem dispatchLine_of_unknown {line : Line} {s : State} (decoded : decodeIn s.wordModel line = .unknown) :
    dispatchLine line s = .next (s.raise (.unknownOpcode line)) := by
  simp only [dispatchLine, decoded]

theorem dispatchLine_of_malformed {line : Line} {s : State} (decoded : decodeIn s.wordModel line = .malformed) :
    dispatchLine line s = .next (s.raise (.malformedOperand line)) := by
  simp only [dispatchLine, decoded]

theorem dispatchLine_of_tooWide {line : Line} {s : State} {n : Int}
    (decoded : decodeIn s.wordModel line = .tooWide n) : dispatchLine line s = .next (faultedBy (.width n) s) := by
  simp only [dispatchLine, decoded, takeFault_eq_faultedBy]

/-- Settles O35: the two ways a performed instruction leaves the dispatch. -/
theorem stepRunsDecodedInstruction : Obligations.StepRunsDecodedInstruction := by
  intro s t line i dispatches decoded answered
  have dispatched := (dispatchLine_of_ok decoded).trans answered
  have sameModel : t.wordModel = s.wordModel := (exec_keeps_controller (exec_cases answered)).wordModel
  exact ⟨step_of_ended dispatches dispatched,
    fun returned fit => step_of_returned dispatches dispatched returned (sameModel ▸ fit)⟩

/-- Settles O36: the report leaves MODE and PC as they were, so the dispatch returns and the advance fits. -/
theorem undecodedLineIsReportedNoOp : Obligations.UndecodedLineIsReportedNoOp := by
  intro s line dispatches fit
  have returned := not_absorbing_of_dispatches dispatches
  exact ⟨fun decoded => step_of_returned dispatches (dispatchLine_of_unknown decoded) returned fit,
    fun decoded => step_of_returned dispatches (dispatchLine_of_malformed decoded) returned fit⟩

/-- Settles O37: Faulted is absorbing, so nothing is added to the fault. -/
theorem wideLiteralFaults : Obligations.WideLiteralFaults :=
  fun _ _ _ dispatches decoded => step_of_ended dispatches (dispatchLine_of_tooWide decoded) rfl

/-! ### Where the jumps land -/

/-- A jump that writes one less than its target has PC at the target after the advance. -/
theorem tracedAndAdvanced_jump_pc {line : Line} {s : State} (n : Int) :
    (tracedAndAdvanced line { s with pc := n - 1 }).pc = n :=
  Int.sub_add_cancel n 1

/-- Settles O44: the target fits every legal word model, so both the jump and the advance go through. -/
theorem jmpLandsOnTarget : Obligations.JmpLandsOnTarget := by
  intro s line n legal dispatches decoded lower upper
  have dispatched := (dispatchLine_of_ok decoded).trans (exec_jmp_of_in_range ⟨lower, upper⟩ s)
  have returned := not_absorbing_of_dispatches dispatches
  have fit : s.wordModel.fits (n - 1 + 1) = true := WordModel.fits_of_legal legal (by omega) (by omega)
  obtain ⟨pc, others⟩ := afterAdvance_keeps s.mode (tracedAndAdvanced line { s with pc := n - 1 })
  exact ⟨_, step_of_returned dispatches dispatched returned fit, pc.trans (tracedAndAdvanced_jump_pc n), others⟩

/-- The next line of a program that meets the invariant has an index that fits (rule R33). -/
theorem fits_next_pc {s : State} {line : Line} (inv : s.Inv) (fetched : s.fetch? = some line) :
    s.wordModel.fits (s.pc + 1) = true := by
  obtain ⟨-, -, ⟨length, -⟩, ⟨legal, -⟩⟩ := inv
  obtain ⟨nonneg, present⟩ := (State.fetch?_eq_some_iff s line).mp fetched
  obtain ⟨inside, -⟩ := List.getElem?_eq_some_iff.mp present
  have atMost : s.prog.length ≤ 128 := length
  exact WordModel.fits_of_legal legal (by omega) (by omega)

/-- Settles O45: with Z clear nothing but the advance happens; with Z set PC lands on the literal, which fits. -/
theorem jzsBranchesOnZero : Obligations.JzsBranchesOnZero := by
  intro s line n inv dispatches decoded fitTarget
  have returned := not_absorbing_of_dispatches dispatches
  cases set : s.z with
  | false =>
    have dispatched := (dispatchLine_of_ok decoded).trans (exec_jzs_of_clear set n)
    obtain ⟨pc, -, -, z, -⟩ := afterAdvance_keeps s.mode (tracedAndAdvanced line s)
    exact ⟨_, step_of_returned dispatches dispatched returned (fits_next_pc inv (fetch?_of_dispatches dispatches)), pc,
      z.trans set⟩
  | true =>
    have dispatched := (dispatchLine_of_ok decoded).trans (exec_jzs_of_set set (fitTarget set))
    obtain ⟨-, literal⟩ := decodedInstructionIsWellFormed s.wordModel line (.jzs n) decoded
    have fit : s.wordModel.fits (n - 1 + 1) = true := by rw [Int.sub_add_cancel]; exact literal
    obtain ⟨pc, -, -, z, -⟩ := afterAdvance_keeps s.mode (tracedAndAdvanced line { s with pc := n - 1 })
    exact ⟨_, step_of_returned dispatches dispatched returned fit, pc.trans (tracedAndAdvanced_jump_pc n), z.trans set⟩

end Sys2Proof.Proofs
end

section
/-!
PROOFS. Reset, load, commands, the run and its pause (48_controller.md sections 1 and 2, 10_state.md section 8), the
host (section 5) and the codes of the conditions (60_exceptions.md section 1).
-/
open Sys2Proof Sys2Proof.Machine Sys2Proof.Claims

namespace Sys2Proof.Proofs

/-! ### Reset and load -/

theorem step_of_awaiting {s : State} (mode : s.mode = .idle ∨ s.mode = .haltedBounds) : step s = .next (await s) :=
  mode.elim step_idle step_haltedBounds

theorem await_of_supplied {s : State} {lines : List Line} (supplied : s.programIn = .supplied lines) :
    await s = s.load lines := by
  simp only [await, supplied]

/-- Settles O10: the fields of the reset state, and the step in Idle with a program waiting. -/
theorem resetAndLoad : Obligations.ResetAndLoad := by
  refine ⟨⟨rfl, rfl, rfl, rfl, rfl, Memory.read_nil, fun n => Table.find?_nil n, rfl, rfl, rfl⟩,
    fun s lines idle supplied => ?_⟩
  rw [step_of_awaiting (.inl idle), await_of_supplied supplied, State.load_eq]

/-- In every legal word model, zeros and the first data address fit, and nothing is listed, bound or loaded. -/
theorem session_inv {wm : WordModel} (legal : wm.legal = true) (lines : List Line) (commands : List Command)
    (answers : List Bool) : (State.session wm lines commands answers).Inv := by
  have zero : wm.fits 0 = true := WordModel.fits_of_legal legal (by decide) (by decide)
  have base : wm.fits Config.dataBase = true := WordModel.fits_of_legal legal (by decide) (by decide)
  exact ⟨⟨Memory.reset_wf, nofun⟩, ⟨.nil, Int.le_refl _, nofun⟩,
    ⟨Nat.zero_le _, Nat.zero_le _, nofun, nofun, fun _ => ⟨rfl, rfl⟩⟩, ⟨legal, zero, zero, zero, base⟩⟩

/-- Settles O11: nothing is emitted at the start, so the counter is at DATA_BASE with no declaration. -/
theorem invariantsHoldAtReset : Obligations.InvariantsHoldAtReset :=
  ⟨by decide, rfl, fun _ lines commands answers legal => ⟨session_inv legal lines commands answers, rfl⟩⟩

/-! ### Commands -/

theorem step_of_command {s : State} {c : Command} {rest : List Command} (commanding : Commanding s)
    (queued : s.commandIn = c :: rest) : step s = .next (perform c { s with commandIn := rest }) := by
  obtain ⟨mode, loaded⟩ := commanding
  rw [step_of_awaiting mode]
  simp only [await, loaded, queued]

theorem perform_quit (s : State) :
    perform .quit s = { s with mode := .quit, out := s.out ++ [.dump s.dump, .cond .sessionQuit] } := by
  simp [perform, State.quitSession, State.emit, State.enter]

theorem countDispatch_commandIn (s : State) : s.countDispatch.commandIn = s.commandIn := by
  rw [State.countDispatch_eq]
  split_ifs <;> rfl

/-- Only Idle and HaltedBounds read a command. -/
theorem step_keeps_commands {s t : State} (h : StepCase s t) (notIdle : s.mode ≠ .idle)
    (notHalted : s.mode ≠ .haltedBounds) : t.commandIn = s.commandIn := by
  cases h with
  | load _ mode | command _ _ mode => exact absurd mode (not_or.mpr ⟨notIdle, notHalted⟩)
  | stays | bounds | completed | confirmed | declined => rfl
  | ended line t _ _ h | advanceFault line t _ _ h | stepped line t _ _ h =>
    exact (dispatch_keeps_controller h).commandIn
  | ran line t _ _ _ h => exact (countDispatch_commandIn _).trans (dispatch_keeps_controller h).commandIn

/-- Settles O38: the oldest command is performed, and in no other mode is one taken. -/
theorem commandsArePerformed : Obligations.CommandsArePerformed := by
  refine ⟨fun s rest commanding => ⟨?_, ?_, fun queued => ?_, ?_⟩,
    fun s t stepped => step_keeps_commands (step_cases stepped)⟩
  · exact step_of_command commanding
  · exact step_of_command commanding
  · rw [step_of_command commanding queued, perform_quit]
    rfl
  · exact step_of_command commanding

/-! ### The Step command -/

theorem steps_one (s : State) : steps 1 s = step s := by
  unfold steps
  cases step s <;> rfl

theorem dispatchAndAdvance_answers (line : Line) (s : State) : ∃ t, dispatchAndAdvance line s = .next t := by
  obtain ⟨t, -, ⟨-, answered⟩ | ⟨-, answered⟩⟩ := dispatchAndAdvance_cases line s <;> exact ⟨_, answered⟩

theorem exists_line_of_inside {s : State} (nonneg : 0 ≤ s.pc) (inside : s.pc < s.prog.length) :
    ∃ line, s.prog[s.pc.toNat]? = some line :=
  ⟨_, List.getElem?_eq_getElem (by omega)⟩

/-- A step that dispatches, by the answer of DispatchAndAdvance (rules R184, R187). -/
theorem step_of_dispatchAndAdvance {line : Line} {s t : State} (dispatches : Dispatches line s)
    (answered : dispatchAndAdvance line s = .next t) :
    step s = .next (if t.mode.absorbing then t else afterAdvance s.mode t) := by
  rw [step_of_dispatches dispatches, answered, onReturn_next]

/-- Settles O39: the first step enters Stepping, and the second is the dispatch or the report. -/
theorem stepCommand : Obligations.StepCommand := by
  intro s rest commanding queued s1
  have entered : step s = .next s1 := step_of_command commanding queued
  have second : steps 2 s = step s1 := (steps_succ entered).trans (steps_one s1)
  refine ⟨fun outside => ?_, fun nonneg inside => ?_⟩
  · rw [second, step_stepping rfl, stepOnce_of_none ((State.fetch?_eq_none_iff s1).mpr outside)]
    rfl
  · obtain ⟨line, present⟩ := exists_line_of_inside nonneg inside
    obtain ⟨t, answered⟩ := dispatchAndAdvance_answers line s1
    have dispatches : Dispatches line s1 := ⟨nonneg, present, .inl rfl⟩
    refine ⟨line, t, present, answered, ?_⟩
    rw [second, step_of_dispatchAndAdvance dispatches answered]
    exact congrArg (fun u => Host.Outcome.next (if t.mode.absorbing then t else u)) (afterAdvance_stepping t)

/-! ### The run -/

/-- Settles O40: the tests of the loop in their order, and then the dispatch. -/
theorem runLoop : Obligations.RunLoop := by
  refine ⟨fun s rest commanding queued => step_of_command commanding queued,
    fun s running => ⟨fun outside => ?_, fun nonneg below past => ?_, fun nonneg below inside => ?_⟩⟩
  · rw [step_running running, runOnce_of_outOfRange ((State.outOfRunRange_iff s).mpr outside)]
    rfl
  · rw [step_running running, runOnce_of_none (outOfRunRange_of_inside nonneg below)
      ((State.fetch?_eq_none_iff s).mpr (.inr past))]
    rfl
  · obtain ⟨line, present⟩ := exists_line_of_inside nonneg inside
    obtain ⟨t, answered⟩ := dispatchAndAdvance_answers line s
    have dispatches : Dispatches line s := ⟨nonneg, present, .inr ⟨running, below⟩⟩
    exact ⟨line, t, present, answered, running ▸ step_of_dispatchAndAdvance dispatches answered⟩

theorem dispatchAndAdvance_wm {line : Line} {s t : State} (answered : dispatchAndAdvance line s = .next t) :
    t.wm = s.wm := by
  obtain ⟨u, h, ⟨-, rfl⟩ | ⟨-, -, rfl⟩ | ⟨-, -, rfl⟩⟩ := dispatchAndAdvance_next answered <;>
    exact (dispatch_keeps_controller h).wm

/-- Settles O41: a dispatch writes no WM, so the count after the dispatch reaches 1000; the answer is read by
`confirm`. -/
theorem watermarkPause : Obligations.WatermarkPause := by
  refine ⟨fun s t line running count dispatches answered returned => ?_,
    fun s paused => ⟨fun unanswered => ?_, fun rest affirmative => ?_, fun rest negative => ?_⟩⟩
  · have last : t.wm + 1 = 1000 := by rw [dispatchAndAdvance_wm answered, count]
    rw [step_of_dispatchAndAdvance dispatches answered, returned, running, afterAdvance_running,
      State.countDispatch_eq, if_pos last]
    rfl
  · rw [step_awaitConfirm paused]
    simp only [confirm, unanswered]
  · rw [step_awaitConfirm paused]
    simp only [confirm, affirmative]
  · rw [step_awaitConfirm paused]
    simp only [confirm, negative]
    rfl

/-! ### Waiting -/

/-- Settles O42: with nothing to read `await` changes nothing. -/
theorem coreWaitsForTheHost : Obligations.CoreWaitsForTheHost := by
  intro s mode nothing
  have waits : await s = s := by
    obtain absent | ⟨taken, empty⟩ := nothing
    · simp only [await, absent]
    · simp only [await, taken, empty]
  exact steps_of_fixed ((step_of_awaiting mode).trans (congrArg _ waits))

/-- Settles O43: a step in one of the three modes changes nothing. -/
theorem absorbingModesAreForEver : Obligations.AbsorbingModesAreForEver := by
  intro s k mode
  have absorbing : s.mode.absorbing = true := by obtain mode | mode | mode := mode <;> rw [mode] <;> rfl
  exact steps_of_fixed (step_absorbing absorbing) k

/-! ### The host, and the codes of the conditions -/

/-- Settles O50: a program is received by an absent port only; a command and an answer join their queues. -/
theorem hostOnlySuppliesInputs : Obligations.HostOnlySuppliesInputs := by
  refine fun s => ⟨fun lines absent => ?_, fun lines present => ?_, fun _ => rfl, fun _ => rfl⟩
  · simp only [State.host, absent]
  · cases port : s.programIn with
    | absent => exact absurd port present
    | supplied | taken => simp only [State.host, port]

/-- Settles O52: the codes by definition, and the class of each condition beside its code. -/
theorem conditionCodes : Obligations.ConditionCodes := by
  refine ⟨fun _ => rfl, fun _ => rfl, fun _ => rfl, fun _ => rfl, fun _ => rfl, fun _ => rfl, fun _ => rfl,
    fun _ => rfl, fun _ => rfl, rfl, rfl, rfl, rfl, rfl, fun c => ?_⟩
  cases c with
  | fault f => cases f <;> simp [Condition.cls, Condition.code]
  | _ => simp [Condition.cls, Condition.code]

end Sys2Proof.Proofs
end

section
/-!
PROOFS. The transitions of MODE (48_controller.md section 3) and the ways the core stops: HLT (45_control.md section 3)
and a fault (60_exceptions.md section 4).
-/
open Sys2Proof Sys2Proof.Machine Sys2Proof.Claims

namespace Sys2Proof.Proofs

/-! ### The transitions of MODE -/

theorem countDispatch_mode (s : State) : s.countDispatch.mode = s.mode ∨ s.countDispatch.mode = .awaitConfirm := by
  rw [State.countDispatch_eq]
  split_ifs
  · exact .inr rfl
  · exact .inl rfl

theorem mode_of_ended {line : Line} {s t : State} (h : DispatchCase s line t) (begun : s.mode.absorbing = false)
    (ended : t.mode.absorbing = true) : t.mode = .faulted ∨ t.mode = .haltedHLT := by
  obtain ⟨f, rfl, -⟩ | ⟨rfl, -⟩ := dispatch_ended h begun ended
  · exact .inl rfl
  · exact .inr rfl

theorem perform_mode (c : Command) (s : State) :
    (perform c s).mode = .stepping ∨ (perform c s).mode = .running ∨ (perform c s).mode = .quit ∨
      (perform c s).mode = s.mode := by
  cases c <;> simp [perform, State.quitSession]

/-- MODE stays or follows a row of the table of rule R191. -/
def ModeRow (m m' : Mode) : Prop :=
  m = m' ∨ (m, m') ∈
    ([(.idle, .stepping), (.haltedBounds, .stepping), (.idle, .running), (.haltedBounds, .running),
      (.idle, .quit), (.haltedBounds, .quit), (.stepping, .idle), (.stepping, .haltedBounds),
      (.stepping, .haltedHLT), (.stepping, .faulted), (.running, .haltedBounds), (.running, .idle),
      (.running, .awaitConfirm), (.running, .haltedHLT), (.running, .faulted),
      (.awaitConfirm, .running), (.awaitConfirm, .idle)] : List (Mode × Mode))

/-- The rows of a command. -/
theorem modeRow_of_commanding {m m' : Mode} (begun : m = .idle ∨ m = .haltedBounds)
    (ended : m' = .stepping ∨ m' = .running ∨ m' = .quit ∨ m' = m) : ModeRow m m' := by
  obtain rfl | rfl := begun <;> obtain rfl | rfl | rfl | rfl := ended <;> simp [ModeRow]

/-- The rows on which both dispatching modes stop. -/
theorem modeRow_of_dispatching {m m' : Mode} (begun : m = .stepping ∨ m = .running)
    (ended : m' = .haltedBounds ∨ m' = .faulted ∨ m' = .haltedHLT) : ModeRow m m' := by
  obtain rfl | rfl := begun <;> obtain rfl | rfl | rfl := ended <;> simp [ModeRow]

theorem step_mode {s t : State} (h : StepCase s t) : ModeRow s.mode t.mode := by
  cases h with
  | stays => exact .inl rfl
  | load lines => exact .inl (by rw [State.load_eq])
  | command c rest begun => exact modeRow_of_commanding begun (perform_mode c { s with commandIn := rest })
  | bounds begun => exact modeRow_of_dispatching begun (.inl rfl)
  | ended line t begun _ h ended =>
    exact modeRow_of_dispatching begun (.inr (mode_of_ended h (not_absorbing_of_dispatching begun) ended))
  | advanceFault line t begun => exact modeRow_of_dispatching begun (.inr (.inl rfl))
  | completed begun | stepped _ _ begun | confirmed _ begun | declined _ begun => simp [ModeRow, begun]
  | ran line t begun _ _ h returned =>
    obtain kept | paused := countDispatch_mode (t.traced line)
    · exact .inl (kept.trans (mode_of_dispatch_returned (t := t) h returned)).symm
    · simp [ModeRow, begun, paused]

/-- Settles O46: each way a transition can go is a row. -/
theorem modeTransitions : Obligations.ModeTransitions :=
  fun _ _ stepped => step_mode (step_cases stepped)

/-! ### Where the core stops -/

/-- A step into HaltedHLT or Faulted is a dispatch that ended the session, or an advance that does not fit. -/
theorem step_stops {s t : State} (h : StepCase s t) (stops : t.mode = .haltedHLT ∨ t.mode = .faulted)
    (entered : t.mode ≠ s.mode) :
    ∃ line, s.fetch? = some line ∧
      ((∃ f, t = faultedBy f s) ∨ (t = haltedBy s ∧ decodeIn s.wordModel line = .ok .hlt) ∨
        (t.mode = .faulted ∧ ∃ u, DispatchCase s line u ∧ u.mode.absorbing = false ∧
          u.wordModel.fits (u.pc + 1) = false)) := by
  cases h with
  | stays => exact absurd rfl entered
  | load => exact absurd (by rw [State.load_eq]) entered
  | command c rest =>
    obtain mode | mode | mode | mode := perform_mode c { s with commandIn := rest }
    · simp [mode] at stops
    · simp [mode] at stops
    · simp [mode] at stops
    · exact absurd mode entered
  | bounds | completed | stepped | confirmed | declined => simp [State.boundsViolation] at stops
  | ended line t begun fetched h ended =>
    obtain ⟨f, rfl, -⟩ | halted := dispatch_ended h (not_absorbing_of_dispatching begun) ended
    · exact ⟨line, fetched, .inl ⟨f, rfl⟩⟩
    · exact ⟨line, fetched, .inr (.inl halted)⟩
  | advanceFault line u _ fetched h returned unfit =>
    exact ⟨line, fetched, .inr (.inr ⟨rfl, u, h, returned, unfit⟩)⟩
  | ran line t _ _ _ h returned =>
    obtain kept | paused := countDispatch_mode (t.traced line)
    · exact absurd (kept.trans (mode_of_dispatch_returned (t := t) h returned)) entered
    · simp [paused] at stops

/-- Settles O22: HLT is absorbing, so a step that dispatches it adds nothing, and no other transition leads to its
mode. -/
theorem hltEndsTheSession : Obligations.HltEndsTheSession := by
  refine ⟨selectsPlain_of_select rfl, fun s => ⟨exec_hlt s, step_absorbing rfl, fun line dispatches decoded => ?_⟩,
    fun s t stepped halted entered => ?_⟩
  · exact step_of_ended dispatches ((dispatchLine_of_ok decoded).trans (exec_hlt s)) rfl
  · obtain ⟨line, fetched, ⟨f, rfl⟩ | ⟨-, decoded⟩ | ⟨faulted, -⟩⟩ :=
      step_stops (step_cases stepped) (.inl halted) (halted ▸ entered.symm)
    · cases halted
    · obtain ⟨nonneg, present⟩ := (State.fetch?_eq_some_iff s line).mp fetched
      exact ⟨line, nonneg, present, decoded⟩
    · rw [halted] at faulted; cases faulted

/-- In a state that meets the invariant the advance after a dispatch that returned fits: PC is at the line dispatched
or at one less than a target that fits. -/
theorem dispatch_advance_fits {line : Line} {s t : State} (inv : s.Inv) (fetched : s.fetch? = some line)
    (h : DispatchCase s line t) (returned : t.mode.absorbing = false) : t.wordModel.fits (t.pc + 1) = true := by
  have next := fits_next_pc inv fetched
  cases h with
  | performed i t decoded h =>
    have ⟨_, literal⟩ := decodedInstructionIsWellFormed s.wordModel line i decoded
    cases h with
    | jmp n | jzsTaken n =>
      show s.wordModel.fits (n - 1 + 1) = true
      rw [Int.sub_add_cancel]
      exact literal
    | memFault | widthFault | hlt => cases returned
    | _ => exact next
  | unknown | malformed => exact next
  | tooWide => cases returned

/-- Settles O48: by the invariant every advance fits, so only a dispatch can stop the core, before any write. -/
theorem faultsArePrecise : Obligations.FaultsArePrecise := by
  intro s t inv stepped faulted notFaulted
  refine ⟨?_, step_absorbing (by rw [faulted]; rfl)⟩
  obtain ⟨line, fetched, fault | ⟨rfl, -⟩ | ⟨-, u, h, returned, unfit⟩⟩ :=
    step_stops (step_cases stepped) (.inr faulted) (faulted ▸ notFaulted.symm)
  · exact fault
  · cases faulted
  · rw [dispatch_advance_fits inv fetched h returned] at unfit
    cases unfit

end Sys2Proof.Proofs
end

section
/-!
PROOFS. The outputs of a step (48_controller.md section 1, 60_exceptions.md section 2): that they are only added to and
never read back, that Unbounded raises no width fault, and what a dump shows.
-/
open Sys2Proof Sys2Proof.Machine Sys2Proof.Claims

namespace Sys2Proof.Proofs

/-! ### No operation reads the outputs back -/

/-- The state with `o` emitted before everything else. -/
def behind (o : List Output) (s : State) : State := { s with out := o ++ s.out }

theorem emit_behind (o : List Output) (x : Output) (s : State) : (behind o s).emit x = behind o (s.emit x) := by
  simp only [behind, State.emit, List.append_assoc]

theorem enter_behind (o : List Output) (m : Mode) (s : State) : (behind o s).enter m = behind o (s.enter m) := rfl

theorem dump_behind (o : List Output) (s : State) : (behind o s).dump = s.dump := rfl

theorem takeFault_behind (o : List Output) (f : Fault) (s : State) :
    (behind o s).takeFault f = behind o (s.takeFault f) := by
  rw [State.takeFault_eq, emit_behind, enter_behind]
  rfl

theorem haltedBy_behind (o : List Output) (s : State) : haltedBy (behind o s) = behind o (haltedBy s) := by
  simp only [haltedBy, behind, List.append_assoc]
  rfl

theorem exec_behind {i : Instr} {s t : State} (o : List Output) (answered : exec i s = .next t) :
    exec i (behind o s) = .next (behind o t) := by
  change exec i (withObserved s.v s.out s) = .next t at answered
  change exec i (withObserved s.v (o ++ s.out) s) = _
  by_cases hlt : i = .hlt
  · subst hlt
    obtain rfl := Host.Outcome.next.inj ((exec_hlt _).symm.trans answered)
    exact (exec_hlt _).trans (congrArg _ (haltedBy_behind o s))
  by_cases writes : WritesV i s
  · obtain ⟨u, answers⟩ := exec_of_writesV writes
    obtain rfl := Host.Outcome.next.inj ((answers _ _).symm.trans answered)
    exact answers _ _
  · obtain ⟨u, new, -, answers⟩ := exec_readsNoObserved hlt writes
    obtain rfl := Host.Outcome.next.inj ((answers _ _).symm.trans answered)
    rw [answers, List.append_assoc]
    rfl

theorem dispatchLine_behind {line : Line} {s t : State} (o : List Output) (answered : dispatchLine line s = .next t) :
    dispatchLine line (behind o s) = .next (behind o t) := by
  cases decoded : decodeIn s.wordModel line with
  | ok i =>
    rw [dispatchLine_of_ok decoded] at answered
    exact (dispatchLine_of_ok (s := behind o s) decoded).trans (exec_behind o answered)
  | unknown =>
    obtain rfl := Host.Outcome.next.inj ((dispatchLine_of_unknown decoded).symm.trans answered)
    exact (dispatchLine_of_unknown (s := behind o s) decoded).trans (congrArg _ (emit_behind o _ s))
  | malformed =>
    obtain rfl := Host.Outcome.next.inj ((dispatchLine_of_malformed decoded).symm.trans answered)
    exact (dispatchLine_of_malformed (s := behind o s) decoded).trans (congrArg _ (emit_behind o _ s))
  | tooWide n =>
    obtain rfl := Host.Outcome.next.inj ((dispatchLine_of_tooWide decoded).symm.trans answered)
    exact (dispatchLine_of_tooWide (s := behind o s) decoded).trans (congrArg _ (takeFault_behind o _ s))

theorem emitTrace_behind (o : List Output) (line : Line) (s : State) :
    (behind o s).emitTrace line = behind o (s.emitTrace line) :=
  emit_behind o _ s

theorem advance_behind (o : List Output) (s : State) : (behind o s).advance = behind o s.advance := by
  obtain ⟨fit, advanced⟩ | ⟨unfit, faulted⟩ := State.advance_cases s
  · rw [advanced]
    exact State.checkW_of_fits (s := behind o s) fit _
  · rw [faulted, ← takeFault_behind]
    exact State.checkW_of_not_fits (s := behind o s) unfit _

theorem countDispatch_behind (o : List Output) (s : State) :
    (behind o s).countDispatch = behind o s.countDispatch := by
  have sameCount : (behind o s).wm = s.wm := rfl
  rw [State.countDispatch_eq, State.countDispatch_eq, sameCount]
  split_ifs
  · simp only [behind, List.append_assoc]
    rfl
  · rfl

/-- What follows a dispatch reads no outputs if the dispatch and the continuation do not. -/
theorem onReturn_behind {r r' : Result} {k : State → State} {t u : State} {o : List Output} (first : r = .next t)
    (second : r' = .next (behind o t)) (goesOn : k (behind o t) = behind o (k t)) (answered : onReturn r k = .next u) :
    onReturn r' k = .next (behind o u) := by
  subst first second
  obtain rfl := Host.Outcome.next.inj answered
  rw [onReturn_next, goesOn]
  exact congrArg _ (apply_ite (behind o) _ _ _).symm

theorem dispatchAndAdvance_behind {line : Line} {s t : State} (o : List Output)
    (answered : dispatchAndAdvance line s = .next t) :
    dispatchAndAdvance line (behind o s) = .next (behind o t) := by
  obtain ⟨u, dispatched⟩ := dispatchLine_answers line s
  exact onReturn_behind dispatched (dispatchLine_behind o dispatched)
    (by rw [emitTrace_behind, advance_behind]) answered

theorem stepOnce_behind {s t : State} (o : List Output) (answered : stepOnce s = .next t) :
    stepOnce (behind o s) = .next (behind o t) := by
  cases fetched : s.fetch? with
  | none =>
    obtain rfl := Host.Outcome.next.inj ((stepOnce_of_none fetched).symm.trans answered)
    rw [stepOnce_of_none (s := behind o s) fetched]
    exact congrArg (fun u => Host.Outcome.next (u.enter .haltedBounds)) (emit_behind o _ s)
  | some line =>
    obtain ⟨u, dispatched⟩ := dispatchAndAdvance_answers line s
    rw [stepOnce_of_fetch fetched] at answered
    rw [stepOnce_of_fetch (s := behind o s) fetched]
    exact onReturn_behind dispatched (dispatchAndAdvance_behind o dispatched)
      (by rw [State.emitDump_eq_emit, emit_behind, enter_behind]; rfl) answered

theorem runOnce_behind {s t : State} (o : List Output) (answered : runOnce s = .next t) :
    runOnce (behind o s) = .next (behind o t) := by
  cases outside : s.outOfRunRange with
  | true =>
    obtain rfl := Host.Outcome.next.inj ((runOnce_of_outOfRange outside).symm.trans answered)
    rw [runOnce_of_outOfRange (s := behind o s) outside]
    exact congrArg (fun u => Host.Outcome.next (u.enter .haltedBounds)) (emit_behind o _ s)
  | false =>
    cases fetched : s.fetch? with
    | none =>
      obtain rfl := Host.Outcome.next.inj ((runOnce_of_none outside fetched).symm.trans answered)
      rw [runOnce_of_none (s := behind o s) outside fetched]
      exact congrArg (fun u => Host.Outcome.next (u.enter .idle)) (emit_behind o _ s)
    | some line =>
      obtain ⟨u, dispatched⟩ := dispatchAndAdvance_answers line s
      rw [runOnce_of_fetch outside fetched] at answered
      rw [runOnce_of_fetch (s := behind o s) outside fetched]
      exact onReturn_behind dispatched (dispatchAndAdvance_behind o dispatched) (countDispatch_behind o u) answered

theorem confirm_behind (o : List Output) (s : State) : confirm (behind o s) = behind o (confirm s) := by
  have sameAnswers : (behind o s).confirmIn = s.confirmIn := rfl
  unfold confirm
  rw [sameAnswers]
  split
  · rfl
  · rfl
  · exact congrArg (State.enter .idle) (emit_behind o _ { s with confirmIn := _ })

theorem perform_behind (o : List Output) (c : Command) (s : State) :
    perform c (behind o s) = behind o (perform c s) := by
  cases c with
  | step | run => rfl
  | quit => simp only [perform, State.quitSession, State.emitDump_eq_emit, State.raise_eq_emit, emit_behind,
      enter_behind, dump_behind]
  | other => exact emit_behind o _ s

theorem load_behind (o : List Output) (lines : List Line) (s : State) :
    (behind o s).load lines = behind o (s.load lines) := by
  simp only [State.load_eq, behind, List.append_assoc]

theorem await_behind (o : List Output) (s : State) : await (behind o s) = behind o (await s) := by
  have sameProgram : (behind o s).programIn = s.programIn := rfl
  have sameCommands : (behind o s).commandIn = s.commandIn := rfl
  unfold await
  rw [sameProgram]
  split
  · rfl
  · exact load_behind o _ s
  · rw [sameCommands]
    split
    · rfl
    · rename_i c rest _
      exact perform_behind o c { s with commandIn := rest }

/-- A step with more outputs before it does the same. -/
theorem step_behind {s t : State} (o : List Output) (answered : step s = .next t) :
    step (behind o s) = .next (behind o t) := by
  cases mode : s.mode with
  | idle | haltedBounds =>
    have waiting : s.mode = .idle ∨ s.mode = .haltedBounds := by simp [mode]
    obtain rfl := Host.Outcome.next.inj ((step_of_awaiting waiting).symm.trans answered)
    exact (step_of_awaiting (s := behind o s) waiting).trans (congrArg _ (await_behind o s))
  | stepping =>
    rw [step_stepping mode] at answered
    exact (step_stepping (s := behind o s) mode).trans (stepOnce_behind o answered)
  | running =>
    rw [step_running mode] at answered
    exact (step_running (s := behind o s) mode).trans (runOnce_behind o answered)
  | awaitConfirm =>
    obtain rfl := Host.Outcome.next.inj ((step_awaitConfirm mode).symm.trans answered)
    exact (step_awaitConfirm (s := behind o s) mode).trans (congrArg _ (confirm_behind o s))
  | haltedHLT | quit | faulted =>
    have absorbing : s.mode.absorbing = true := by rw [mode]; rfl
    obtain rfl := Host.Outcome.next.inj ((step_absorbing absorbing).symm.trans answered)
    exact step_absorbing (s := behind o s) absorbing

theorem onReturn_answers {r : Result} {t : State} (answered : r = .next t) (k : State → State) :
    ∃ u, onReturn r k = .next u := by
  subst answered
  exact ⟨_, onReturn_next t k⟩

theorem stepOnce_answers (s : State) : ∃ t, stepOnce s = .next t := by
  cases fetched : s.fetch? with
  | none => exact ⟨_, stepOnce_of_none fetched⟩
  | some line =>
    obtain ⟨t, answered⟩ := dispatchAndAdvance_answers line s
    exact stepOnce_of_fetch fetched ▸ onReturn_answers answered _

theorem runOnce_answers (s : State) : ∃ t, runOnce s = .next t := by
  cases outside : s.outOfRunRange with
  | true => exact ⟨_, runOnce_of_outOfRange outside⟩
  | false =>
    cases fetched : s.fetch? with
    | none => exact ⟨_, runOnce_of_none outside fetched⟩
    | some line =>
      obtain ⟨t, answered⟩ := dispatchAndAdvance_answers line s
      exact runOnce_of_fetch outside fetched ▸ onReturn_answers answered _

theorem step_answers (s : State) : ∃ t, step s = .next t := by
  cases mode : s.mode with
  | idle | haltedBounds => exact ⟨_, step_of_awaiting (by simp [mode])⟩
  | stepping => exact step_stepping mode ▸ stepOnce_answers s
  | running => exact step_running mode ▸ runOnce_answers s
  | awaitConfirm => exact ⟨_, step_awaitConfirm mode⟩
  | haltedHLT | quit | faulted => exact ⟨_, step_absorbing (by rw [mode]; rfl)⟩

/-- Settles O47: the new outputs are those of the step of the same state with no outputs yet. -/
theorem stepAnswersAndReadsNoOutput : Obligations.StepAnswersAndReadsNoOutput := by
  intro s o
  have eta : behind s.out { s with out := [] } = s := by simp only [behind, List.append_nil]
  have replaced : behind o { s with out := [] } = { s with out := o } := by simp only [behind, List.append_nil]
  obtain ⟨t, answered⟩ := step_answers { s with out := [] }
  refine ⟨behind s.out t, t.out, ?_, rfl, ?_⟩
  · rw [← step_behind s.out answered, eta]
  · rw [← replaced, step_behind o answered]
    rfl

/-! ### No width fault under Unbounded -/

/-- A dispatch adds a width fault only for a value that does not fit. -/
theorem dispatch_width_fault {line : Line} {s t : State} {v : Int} (h : DispatchEnd s line t)
    (raised : Output.cond (.fault (.width v)) ∈ t.out) :
    Output.cond (.fault (.width v)) ∈ s.out ∨ s.wordModel.fits v = false := by
  cases h with
  | returned _ _ out =>
    obtain out | ⟨c, reported, out⟩ := out
    · exact .inl (out ▸ raised)
    · rw [out, List.mem_append, List.mem_singleton] at raised
      obtain old | new := raised
      · exact .inl old
      · obtain rfl := Output.cond.inj new
        cases reported
  | faulted f cause =>
    obtain old | new := List.mem_append.mp raised
    · exact .inl old
    · obtain rfl := Condition.fault.inj (Output.cond.inj (List.mem_singleton.mp new))
      exact .inr (cause v rfl)
  | halted =>
    obtain old | new := List.mem_append.mp raised
    · exact .inl old
    · simp at new

theorem mem_of_mem_emit {s : State} {o x : Output} (mem : x ∈ (s.emit o).out) (other : x ≠ o) : x ∈ s.out := by
  simpa [other] using mem

theorem width_fault_of_mem_load {s : State} {lines : List Line} {v : Int}
    (raised : Output.cond (.fault (.width v)) ∈ (s.load lines).out) : Output.cond (.fault (.width v)) ∈ s.out := by
  rw [State.load_eq] at raised
  obtain old | new := List.mem_append.mp raised
  · exact old
  · split_ifs at new <;> simp at new

theorem width_fault_of_mem_perform {s : State} {c : Command} {v : Int}
    (raised : Output.cond (.fault (.width v)) ∈ (perform c s).out) : Output.cond (.fault (.width v)) ∈ s.out := by
  cases c with
  | step | run => exact raised
  | quit => exact mem_of_mem_emit (mem_of_mem_emit (s := s.emitDump) raised nofun) nofun
  | other => exact mem_of_mem_emit raised nofun

theorem width_fault_of_mem_countDispatch {s : State} {v : Int}
    (raised : Output.cond (.fault (.width v)) ∈ s.countDispatch.out) : Output.cond (.fault (.width v)) ∈ s.out := by
  rw [State.countDispatch_eq] at raised
  split_ifs at raised
  · simpa using raised
  · exact raised

/-- A step adds a width fault only for a value that does not fit. -/
theorem step_width_fault {s t : State} {v : Int} (h : StepCase s t)
    (raised : Output.cond (.fault (.width v)) ∈ t.out) :
    Output.cond (.fault (.width v)) ∈ s.out ∨ s.wordModel.fits v = false := by
  cases h with
  | stays | confirmed => exact .inl raised
  | load lines => exact .inl (width_fault_of_mem_load raised)
  | command c rest => exact .inl (width_fault_of_mem_perform (s := { s with commandIn := rest }) raised)
  | bounds | completed | declined => exact .inl (mem_of_mem_emit raised nofun)
  | ended line t _ _ h => exact dispatch_width_fault (dispatch_ends h) raised
  | advanceFault line t _ _ h _ unfit =>
    obtain old | new := List.mem_append.mp raised
    · exact dispatch_width_fault (dispatch_ends h) (mem_of_mem_emit old nofun)
    · obtain rfl := Fault.width.inj (Condition.fault.inj (Output.cond.inj (List.mem_singleton.mp new)))
      exact .inr ((dispatch_keeps_controller h).wordModel ▸ unfit)
  | stepped line t _ _ h =>
    have traced := mem_of_mem_emit (s := t.traced line) raised nofun
    exact dispatch_width_fault (dispatch_ends h) (mem_of_mem_emit traced nofun)
  | ran line t _ _ _ h =>
    have traced := width_fault_of_mem_countDispatch raised
    exact dispatch_width_fault (dispatch_ends h) (mem_of_mem_emit traced nofun)

/-- Settles O49: under Unbounded every value fits. -/
theorem noWidthFaultUnbounded : Obligations.NoWidthFaultUnbounded := by
  intro s t v unbounded stepped raised
  obtain old | unfit := step_width_fault (step_cases stepped) raised
  · exact old
  · rw [unbounded] at unfit
    cases unfit

/-! ### What a dump shows -/

theorem dump_names (s : State) : s.dump.names.map DumpEntry.name = s.sym.map Prod.fst := by
  simp only [State.dump, List.map_map]
  rfl

theorem dumpEntry_eq_iff (s : State) (b : SymName × Int) (e : DumpEntry) :
    s.dumpEntry b = e ↔ b = (e.name, e.address) ∧
      e.word = if 0 ≤ e.address ∧ e.address < 256 then some (Memory.read s.mem e.address.toNat) else none := by
  simp only [State.dumpEntry, addressInBounds_iff]
  constructor
  · rintro rfl
    exact ⟨rfl, rfl⟩
  · rintro ⟨rfl, word⟩
    cases e
    simpa using word.symm

/-- Settles O51: the entries of the dump are the entries of the symbol table, which are its bindings, with no name
twice. -/
theorem dumpShowsEachBinding : Obligations.DumpShowsEachBinding := by
  intro s sorted
  refine ⟨⟨rfl, rfl, rfl, rfl, rfl⟩, ?_, fun e => ?_⟩
  · rw [dump_names]
    have distinct : s.sym.Pairwise (fun a b => a.1 ≠ b.1) := by
      refine sorted.imp fun rising same => ?_
      rw [same, nameLt_irrefl] at rising
      cases rising
    exact List.pairwise_map.mpr distinct
  · simp only [State.dump, List.mem_map, dumpEntry_eq_iff, ← State.mem_sym_iff sorted]
    constructor
    · rintro ⟨b, bound, rfl, word⟩
      exact ⟨bound, word⟩
    · rintro ⟨bound, word⟩
      exact ⟨_, bound, rfl, word⟩

end Sys2Proof.Proofs
end

section
/-!
PROOFS. Runs of many steps (10_state.md section 5, 20_memory.md section 4, 48_controller.md section 4): the loaded
program and the length of a run.
-/
open Sys2Proof Sys2Proof.Machine Sys2Proof.Claims

namespace Sys2Proof.Proofs

/-- What every step keeps, every number of steps keeps. -/
theorem steps_keep {P : State → Prop} (kept : ∀ s t, P s → step s = .next t → P t) {k : Nat} {s t : State}
    (start : P s) (ran : steps k s = .next t) : P t := by
  induction k generalizing s with
  | zero => exact Host.Outcome.next.inj ran ▸ start
  | succ k ih =>
    obtain ⟨u, stepped⟩ := step_answers s
    rw [steps_succ stepped] at ran
    exact ih (kept s u start stepped) ran

/-! ### The loaded program -/

theorem countDispatch_prog (s : State) :
    s.countDispatch.prog = s.prog ∧ s.countDispatch.programIn = s.programIn := by
  rw [State.countDispatch_eq]
  split_ifs <;> exact ⟨rfl, rfl⟩

theorem perform_prog (c : Command) (s : State) :
    (perform c s).prog = s.prog ∧ (perform c s).programIn = s.programIn := by
  cases c <;> exact ⟨rfl, rfl⟩

/-- Once the program is taken, no step writes it or its port. -/
theorem step_keeps_program {s t : State} (h : StepCase s t) (taken : s.programIn = .taken) :
    t.prog = s.prog ∧ t.programIn = s.programIn := by
  cases h with
  | load lines _ supplied => rw [taken] at supplied; cases supplied
  | stays | bounds | completed | confirmed | declined => exact ⟨rfl, rfl⟩
  | command c rest => exact perform_prog c { s with commandIn := rest }
  | ended line t _ _ h | advanceFault line t _ _ h | stepped line t _ _ h =>
    have kept := dispatch_keeps_controller h
    exact ⟨kept.prog, kept.programIn⟩
  | ran line t _ _ _ h =>
    have kept := dispatch_keeps_controller h
    obtain ⟨prog, programIn⟩ := countDispatch_prog (t.traced line)
    exact ⟨prog.trans kept.prog, programIn.trans kept.programIn⟩

theorem host_keeps_prog (a : HostAction) (s : State) : (s.host a).prog = s.prog := by
  cases a with
  | program lines => cases port : s.programIn <;> simp only [State.host, port]
  | command | answer => rfl

/-- Settles O55: the load is the only writer of the program, and it needs a program that is not taken yet. -/
theorem programIsReadOnly : Obligations.ProgramIsReadOnly := by
  intro k s t taken ran
  have kept : t.prog = s.prog ∧ t.programIn = .taken :=
    steps_keep (P := fun u => u.prog = s.prog ∧ u.programIn = .taken)
      (fun u w ⟨prog, taken⟩ stepped => by
        obtain ⟨sameProg, samePort⟩ := step_keeps_program (step_cases stepped) taken
        exact ⟨sameProg.trans prog, samePort.trans taken⟩)
      ⟨rfl, taken⟩ ran
  obtain ⟨prog, taken⟩ := kept
  exact ⟨prog, taken, fun a => (host_keeps_prog a t).trans prog⟩

/-! ### The length of a run -/

theorem countDispatch_wm_of_running {s : State} (running : s.countDispatch.mode = .running) :
    s.countDispatch.wm = s.wm + 1 ∧ s.wm + 1 ≠ 1000 := by
  by_cases pause : s.wm + 1 = 1000
  · simp [State.countDispatch_eq, pause] at running
  · rw [State.countDispatch_eq, if_neg pause]
    exact ⟨rfl, pause⟩

/-- A step that stays in Running counts one dispatch and has not reached the watermark. -/
theorem step_within_run {s t : State} (h : StepCase s t) (before : s.mode = .running) (after : t.mode = .running) :
    t.wm = s.wm + 1 ∧ s.wm + 1 ≠ 1000 := by
  cases h with
  | stays idle => exact absurd before idle.2
  | load _ mode | command _ _ mode => simp [before] at mode
  | bounds | completed | stepped | advanceFault | declined => simp [State.boundsViolation] at after
  | confirmed _ mode => simp [before] at mode
  | ended line t _ _ _ ended => rw [after] at ended; cases ended
  | ran line t _ _ _ h =>
    have count : (t.traced line).wm = s.wm := (dispatch_keeps_controller h).wm
    exact count ▸ countDispatch_wm_of_running after

/-- A run with `n` dispatches left before the watermark is over within `n` steps. -/
theorem leaves_running_within {n : Nat} {s : State} (running : s.mode = .running) (left : s.wm + n = 1000)
    (more : 0 < n) : ∃ k t, k ≤ n ∧ steps k s = .next t ∧ t.mode ≠ .running := by
  induction n generalizing s with
  | zero => omega
  | succ n ih =>
    obtain ⟨t, stepped⟩ := step_answers s
    by_cases still : t.mode = .running
    · obtain ⟨count, below⟩ := step_within_run (step_cases stepped) running still
      obtain ⟨k, u, bound, ran, left⟩ := ih still (by omega) (by omega)
      exact ⟨k + 1, u, by omega, (steps_succ stepped).trans ran, left⟩
    · exact ⟨1, t, by omega, (steps_one s).trans stepped, still⟩

/-- Settles O56: in Running the invariant leaves WM below the watermark, and every step that stays in the run counts
one. -/
theorem runPausesWithinWatermark : Obligations.RunPausesWithinWatermark := by
  rintro s ⟨-, -, ⟨-, -, belowWatermark, -⟩, -⟩ running
  have below : s.wm < 1000 := belowWatermark running
  exact leaves_running_within running (by omega) (by omega)

end Sys2Proof.Proofs
end
